-- ==== Sys2Proof/Config.lean ====
section
/-! DEFINITION. The parameters of the hardware (00_scope.md R4). -/

namespace Sys2Proof.Config

/-- Number of program-memory cells, addresses 0..32767 (R4, R23). -/
abbrev memWords : Nat := 32768

/-- The least instruction-pointer value at which the fetch check halts the machine (R4, R15). -/
abbrev fetchLimit : Nat := 32768

/-- The modulus of `add` and `mult` (R4). -/
abbrev valueMod : Nat := 32768

/-- The operand word that selects register 0 (R4, R53). -/
abbrev regBase : Nat := 32768

/-- The largest valid encoded operand word (R4, R53). -/
abbrev maxOperand : Nat := 32775

/-- The line-terminator code the I/O Channel appends, as State.reset has it.
PRESUMED (the spec's G1; D14 keeps it a parameter, so State holds it): log 7, unsafe. -/
def defaultLineTerm : Nat := 10

end Sys2Proof.Config
end

