-- ==== Sys2Proof/Word.lean ====
section
/-! DEFINITION. The storage unit and the register numbers. -/

namespace Sys2Proof

/-- A cell: 16 bits, any value 0..65535 (10_state.md R11). -/
abbrev Word := BitVec 16

/-- A character code on port OUT: 8 bits (00_scope.md R4). -/
abbrev CharCode := BitVec 8

/-- A register number 0..7 (10_state.md R12). -/
abbrev RegNum := Fin 8

end Sys2Proof
end

