-- ==== Sys2Proof/Syntax.lean ====
section
/-! DEFINITION. The instructions of the synacore ISA, as data. -/

namespace Sys2Proof

/-- An operand word, by the three classes of 30_encoding.md R53. An invalid word is kept with the value
it has, because it is a fault only when it is resolved (R54, R55, R66) and the fault records it (R120). -/
inductive Operand where
  /-- 0..32767: the value itself, 15 bits. -/
  | literal (v : BitVec 15)
  /-- 32768..32775: a register selector. -/
  | register (r : RegNum)
  /-- 32776..65535: no meaning. -/
  | invalid (w : Word)
  deriving DecidableEq, Repr

/-- The 22 instructions (30_encoding.md R57), operands in encoding order `a`, `b`, `c`.
`input` is the table's `in`. -/
inductive Instr where
  | halt
  | set (a b : Operand)
  | push (a : Operand)
  | pop (a : Operand)
  | eq (a b c : Operand)
  | gt (a b c : Operand)
  | jmp (a : Operand)
  | jt (a b : Operand)
  | jf (a b : Operand)
  | add (a b c : Operand)
  | mult (a b c : Operand)
  | mod (a b c : Operand)
  | and (a b c : Operand)
  | or (a b c : Operand)
  | not (a b : Operand)
  | rmem (a b : Operand)
  | wmem (a b : Operand)
  | call (a : Operand)
  | ret
  | out (a : Operand)
  | input (a : Operand)
  | noop
  deriving DecidableEq, Repr

end Sys2Proof
end

