-- ==== Sys2Proof/WellFormed.lean ====
section
/-! DEFINITION. Which terms of the syntax an encoding spells.

A literal is 15 bits and a register number is below 8 by their types; the one check left is that a word
called invalid is one of 32776..65535 (30_encoding.md R53), in each operand of an instruction. An
instruction with an invalid word IS well-formed: it is encoded, fetched and executed, and its execution
raises the fatal condition of R54 or R55. -/

namespace Sys2Proof

/-- The word of an `invalid` operand lies above the register selectors (R53). -/
def Operand.wf : Operand → Bool
  | .literal _ => true
  | .register _ => true
  | .invalid w => decide (Config.maxOperand < w.toNat)

/-- Every operand is well-formed. -/
def Instr.wf : Instr → Bool
  | .halt => true
  | .set a b => a.wf && b.wf
  | .push a => a.wf
  | .pop a => a.wf
  | .eq a b c => a.wf && b.wf && c.wf
  | .gt a b c => a.wf && b.wf && c.wf
  | .jmp a => a.wf
  | .jt a b => a.wf && b.wf
  | .jf a b => a.wf && b.wf
  | .add a b c => a.wf && b.wf && c.wf
  | .mult a b c => a.wf && b.wf && c.wf
  | .mod a b c => a.wf && b.wf && c.wf
  | .and a b c => a.wf && b.wf && c.wf
  | .or a b c => a.wf && b.wf && c.wf
  | .not a b => a.wf && b.wf
  | .rmem a b => a.wf && b.wf
  | .wmem a b => a.wf && b.wf
  | .call a => a.wf
  | .ret => true
  | .out a => a.wf
  | .input a => a.wf
  | .noop => true

end Sys2Proof
end

