-- ==== Sys2Proof/Decode.lean ====
section
/-! DEFINITION. The decoder, total on any list of cells, and the encoder (30_encoding.md R50 to R59). -/

namespace Sys2Proof

/-- The class of an encoded operand word (R53). -/
def Operand.ofWord (w : Word) : Operand :=
  if w.toNat < Config.regBase then .literal (w.setWidth 15)
  else if w.toNat ≤ Config.maxOperand then .register (Fin.ofNat 8 w.toNat)
  else .invalid w

/-- The word that spells an operand (R53). -/
def Operand.encode : Operand → Word
  | .literal v => v.setWidth 16
  | .register r => BitVec.ofNat 16 (Config.regBase + r.val)
  | .invalid w => w

/-- Why a list of cells spells no instruction. -/
inductive DecodeError where
  /-- The opcode word is 22..65535 (R52, R58). -/
  | invalidOpcode (w : Word)
  /-- The cell `k` places after the opcode word is not there (R33, R60 step 5); `k` = 0: no cell at all. -/
  | missingCell (k : Nat)
  deriving DecidableEq, Repr

/-- A format `W2` tail (R51): one operand word. -/
def operands1 (mk : Operand → Instr) : List Word → Except DecodeError (Instr × List Word)
  | a :: rest => .ok (mk (.ofWord a), rest)
  | [] => .error (.missingCell 1)

/-- A format `W3` tail (R51): two operand words. -/
def operands2 (mk : Operand → Operand → Instr) : List Word → Except DecodeError (Instr × List Word)
  | a :: b :: rest => .ok (mk (.ofWord a) (.ofWord b), rest)
  | [_] => .error (.missingCell 2)
  | [] => .error (.missingCell 1)

/-- A format `W4` tail (R51): three operand words. -/
def operands3 (mk : Operand → Operand → Operand → Instr) :
    List Word → Except DecodeError (Instr × List Word)
  | a :: b :: c :: rest => .ok (mk (.ofWord a) (.ofWord b) (.ofWord c), rest)
  | [_, _] => .error (.missingCell 3)
  | [_] => .error (.missingCell 2)
  | [] => .error (.missingCell 1)

/-- The instruction at the head of a list of cells, and the cells after it. The opcode is compared as a
whole 16-bit number (R52) and checked before any operand cell (R60 steps 3 and 5); the opcode map is R57. -/
def decode : List Word → Except DecodeError (Instr × List Word)
  | [] => .error (.missingCell 0)
  | op :: rest =>
    match op.toNat with
    | 0 => .ok (.halt, rest)
    | 1 => operands2 .set rest
    | 2 => operands1 .push rest
    | 3 => operands1 .pop rest
    | 4 => operands3 .eq rest
    | 5 => operands3 .gt rest
    | 6 => operands1 .jmp rest
    | 7 => operands2 .jt rest
    | 8 => operands2 .jf rest
    | 9 => operands3 .add rest
    | 10 => operands3 .mult rest
    | 11 => operands3 .mod rest
    | 12 => operands3 .and rest
    | 13 => operands3 .or rest
    | 14 => operands2 .not rest
    | 15 => operands2 .rmem rest
    | 16 => operands2 .wmem rest
    | 17 => operands1 .call rest
    | 18 => .ok (.ret, rest)
    | 19 => operands1 .out rest
    | 20 => operands1 .input rest
    | 21 => .ok (.noop, rest)
    | _ => .error (.invalidOpcode op)

/-- The cells that spell an instruction (R51, R57). -/
def encode : Instr → List Word
  | .halt => [0]
  | .set a b => [1, a.encode, b.encode]
  | .push a => [2, a.encode]
  | .pop a => [3, a.encode]
  | .eq a b c => [4, a.encode, b.encode, c.encode]
  | .gt a b c => [5, a.encode, b.encode, c.encode]
  | .jmp a => [6, a.encode]
  | .jt a b => [7, a.encode, b.encode]
  | .jf a b => [8, a.encode, b.encode]
  | .add a b c => [9, a.encode, b.encode, c.encode]
  | .mult a b c => [10, a.encode, b.encode, c.encode]
  | .mod a b c => [11, a.encode, b.encode, c.encode]
  | .and a b c => [12, a.encode, b.encode, c.encode]
  | .or a b c => [13, a.encode, b.encode, c.encode]
  | .not a b => [14, a.encode, b.encode]
  | .rmem a b => [15, a.encode, b.encode]
  | .wmem a b => [16, a.encode, b.encode]
  | .call a => [17, a.encode]
  | .ret => [18]
  | .out a => [19, a.encode]
  | .input a => [20, a.encode]
  | .noop => [21]

/-- The length of an instruction in cells, `1 + NOPS` (R57, R59). -/
def Instr.length (i : Instr) : Nat := (encode i).length

/-- The longest instruction, in cells (R50). -/
def maxCells : Nat := 4

/-- Cell `k` of an instruction whose bits are the number `w`, the first cell lowest: a cell is stored
whole, so there is no byte order to choose (20_memory.md R34). -/
def tableCell (w k : Nat) : Word := BitVec.ofNat 16 (w / 65536 ^ k)

/-- The cells of an instruction of `nbits` bits, cells of zeros after them up to the longest instruction. -/
def tableCells (nbits w : Nat) : List Word := (List.range maxCells).map (tableCell (w % 2 ^ nbits))

/-- What the decoder reads from an instruction whose bits are `w`, numbered as the opcode table numbers them. -/
def decodeTableWord (nbits w : Nat) : Option Instr :=
  match decode (tableCells nbits w) with
  | .ok (i, _) => some i
  | .error _ => none

end Sys2Proof
end

