-- ==== Sys2Proof/Machine/State.lean ====
section
/-! DEFINITION. Everything the spec gives the machine, as plain data, and the machine after reset. -/

namespace Sys2Proof.Machine

/-- Why a run ended gracefully (60_exceptions.md R121). -/
inductive HaltReason where
  /-- The `halt` instruction (R70). -/
  | explicit
  /-- `pc >= FETCH_LIMIT` when a step begins (R60 step 1). -/
  | outOfRange
  /-- `ret` with an empty stack (R89). -/
  | emptyReturn
  deriving DecidableEq, Repr

/-- The kind of a fatal condition: its cause code, named and not numbered (60_exceptions.md R120). -/
inductive AbortKind where
  | invalidOpcode
  | invalidOperand
  | invalidAddress
  | stackUnderflow
  | modByZero
  deriving DecidableEq, Repr

/-- The two pieces of a diagnostic that the condition itself fixes: its kind and the offending word (R120). -/
structure Cause where
  kind : AbortKind
  word : Word
  deriving DecidableEq, Repr

/-- The run state (10_state.md R17), also what port STATUS shows (00_scope.md R5). -/
inductive Run where
  | running
  | halted (reason : HaltReason)
  | aborted (kind : AbortKind) (pc word : Word)
  deriving DecidableEq, Repr

/-- A debug directive as parsed by the channel (60_exceptions.md R132). The arguments are unbounded, as
in the source's grammar; the bounds are checked where a directive is applied. -/
inductive Directive where
  /-- `.wmem <hexAddr> <hexVal>` -/
  | wmem (addr val : Nat)
  /-- `.wreg <decReg> <decVal>` -/
  | wreg (reg val : Nat)
  /-- `.debug` -/
  | debug
  /-- Anything else after the prefix, or malformed arguments. -/
  | malformed
  deriving DecidableEq, Repr

/-- A line of the external line source: an ordinary line as its character codes, or a line that begins
with the reserved prefix (46_io.md R114, R115). -/
inductive InputLine where
  | text (codes : List Word)
  | directive (d : Directive)
  deriving DecidableEq, Repr

/-- A resolved operand as a trace record shows it (60_exceptions.md R133). -/
inductive TraceOperand where
  /-- A register destination. -/
  | dest (r : RegNum)
  /-- A value. -/
  | value (v : Word)
  /-- A word that does not resolve in its role (log 9). -/
  | unresolved (w : Word)
  deriving DecidableEq, Repr

/-- Whether a trace record was emitted before or after the mutation of its step (60_exceptions.md R133). -/
inductive TracePhase where
  | before
  | after
  deriving DecidableEq, Repr

/-- One emission on port TRACE: its content, not its text (60_exceptions.md R133; log 9). -/
structure TraceRecord where
  phase : TracePhase
  /-- The decoded instruction; its mnemonic is the constructor's. -/
  instr : Instr
  operands : List TraceOperand
  regs : Vector Word 8
  depth : Nat
  top : Option Word
  deriving DecidableEq, Repr

/-- Program memory as (address, cell) pairs in one canonical form: addresses rising, below `memWords`, and
no cell equal to what an unlisted address reads as (`Memory.wf`). The cell is the smallest addressable
unit (20_memory.md R34; log 1). -/
abbrev Memory := List (Nat × Word)

/-- The architectural state of the block (10_state.md R10), the wait of an `in`, and the environment's side
of the ports. -/
structure State where
  /-- `x[0]`..`x[7]` (R12). -/
  regs : Vector Word 8
  /-- The instruction pointer (R14). -/
  pc : Word
  /-- Program memory (R23). -/
  mem : Memory
  /-- The stack, top first (R16). -/
  stack : List Word
  /-- The run state (R17). -/
  run : Run
  /-- The destination held by an `in` during whose wait the host has moved (R21, 60_exceptions.md R132, R134,
  46_io.md R111). -/
  waiting : Option RegNum
  /-- The Input Queue, head first (R21). -/
  input : List Word
  /-- The lines the external line source still holds, next first (46_io.md R114, R115; log 6). -/
  lines : List InputLine
  /-- `LINE_TERM`, a parameter (46_io.md R114). -/
  lineTerm : Word
  /-- What port OUT has carried, oldest first (46_io.md R112). -/
  output : List CharCode
  /-- The trace-enable flag (R21). -/
  traceOn : Bool
  /-- What port TRACE has carried, oldest first (60_exceptions.md R133). -/
  traceLog : List TraceRecord
  deriving DecidableEq, Repr

/-- Why the machine has no step. Fatal conditions are not here: the spec describes the state they leave
(`Run.aborted`), so they are next states. -/
inductive Fault where
  /-- Raised by `step` when `run` is not `Running`: "the machine takes no further step" (10_state.md R17).
  Safe: the hardware does nothing either. -/
  | runEnded
  /-- Raised by `in`, or by the step of a waiting `in`, when no code and no ordinary line is left: "stuck (no
  step, not final)" (46_io.md R116, R117). Safe: the machine stops where the hardware waits. -/
  | waitingForInput
  deriving DecidableEq, Repr

/-- Why the model gives an instruction no meaning. -/
inductive Refusal where
  /-- Raised by an arm of `exec` whose instruction has no meaning yet; no arm is so. Safe. -/
  | notModelled (mnemonic : String)
  deriving DecidableEq, Repr

/-- What a meaning and a step answer. -/
abbrev Result := Host.Outcome State Fault Refusal

/-- The machine after reset with the empty image (10_state.md R22, 70_reset_and_hazards.md R140, R143). -/
def State.reset : State where
  regs := Vector.replicate 8 0
  pc := 0
  mem := []
  stack := []
  run := .running
  waiting := none
  input := []
  lines := []
  lineTerm := BitVec.ofNat 16 Config.defaultLineTerm
  output := []
  traceOn := false
  traceLog := []

end Sys2Proof.Machine
end

