-- ==== Sys2Proof/Machine/Ops.lean ====
section
/-! DEFINITION. The named operations over memory, registers, stack and ports, and the two ways a run ends. -/

namespace Sys2Proof.Machine

/-! ## Program memory -/

/-- What a cell that nothing has written reads as: 0 (10_state.md R22, the spec's decision D2; log 2). -/
def Memory.unlisted : Word := 0

/-- The content of cell `a`. -/
def Memory.read : Memory → Nat → Word
  | [], _ => Memory.unlisted
  | (k, v) :: m, a => if k = a then v else Memory.read m a

/-- Write cell `a`, keeping the canonical form: a cell written with what an unlisted address reads as is
not listed. -/
def Memory.write : Memory → Nat → Word → Memory
  | [], a, v => if v = Memory.unlisted then [] else [(a, v)]
  | (k, w) :: m, a, v =>
    if a < k then
      if v = Memory.unlisted then (k, w) :: m else (a, v) :: (k, w) :: m
    else if a = k then
      if v = Memory.unlisted then m else (a, v) :: m
    else (k, w) :: Memory.write m a v

/-- The canonical form, from address `lo` upward: addresses rising and below `memWords` (R23), no listed
cell equal to `unlisted`. -/
def Memory.wfFrom : Nat → Memory → Bool
  | _, [] => true
  | lo, (k, v) :: m =>
    decide (lo ≤ k) && decide (k < Config.memWords) && decide (v ≠ Memory.unlisted) &&
      Memory.wfFrom (k + 1) m

/-- The canonical form. -/
def Memory.wf (m : Memory) : Bool := Memory.wfFrom 0 m

/-- Write consecutive cells from `a` upward, leaving out those that do not exist. -/
def Memory.writeAll : Memory → Nat → List Word → Memory
  | m, _, [] => m
  | m, a, v :: vs => Memory.writeAll (if a < Config.memWords then m.write a v else m) (a + 1) vs

/-! ## Registers, program counter, stack, output -/

/-- `x[r]` (R12). -/
def State.getReg (s : State) (r : RegNum) : Word := s.regs[r]

/-- `x[r] <- v`, all 16 bits (R11). -/
def State.setReg (s : State) (r : RegNum) (v : Word) : State := { s with regs := s.regs.set r v }

/-- `pc <- v` (R14). -/
def State.setPc (s : State) (v : Word) : State := { s with pc := v }

/-- The default advance over an instruction of `n` cells (R62). `step` executes only where `pc` is at most
32767, so the sum never wraps there (R15). -/
def State.advance (s : State) (n : Nat) : State := s.setPc (s.pc + BitVec.ofNat 16 n)

/-- `push(v)` (R16). -/
def State.pushWord (s : State) (v : Word) : State := { s with stack := v :: s.stack }

/-- The stack that a `pop()` leaves (R16). -/
def State.setStack (s : State) (st : List Word) : State := { s with stack := st }

/-- `mem[a] <- v` for an address known to exist (R32). -/
def State.setCell (s : State) (a : Nat) (v : Word) : State := { s with mem := s.mem.write a v }

/-- `emit(c)` on port OUT (46_io.md R110, R112). -/
def State.emit (s : State) (c : CharCode) : State := { s with output := s.output ++ [c] }

/-! ## The ends of a run -/

/-- `raise K(word)`: the run state records the kind, the `pc` of the instruction and the offending word;
nothing else changes (60_exceptions.md R125). It is the whole of taking an exception on this hardware, and
there is no return from it (R126). -/
def State.raise (s : State) (c : Cause) : State := { s with run := .aborted c.kind s.pc c.word }

/-- `halt(reason)`: the run state changes and nothing else (60_exceptions.md R121). -/
def State.halt (s : State) (r : HaltReason) : State := { s with run := .halted r }

/-! ## The memory primitives an instruction uses -/

/-- `MemRead(ea, 1)`, or the condition of an address that does not exist (R31, R33). -/
def State.memRead (s : State) (ea : Word) : Except Cause Word :=
  if ea.toNat < Config.memWords then .ok (s.mem.read ea.toNat) else .error ⟨.invalidAddress, ea⟩

/-- `MemWrite(ea, 1, v)`, or the condition of an address that does not exist (R32, R33). -/
def State.memWrite (s : State) (ea v : Word) : Except Cause State :=
  if ea.toNat < Config.memWords then .ok (s.setCell ea.toNat v) else .error ⟨.invalidAddress, ea⟩

end Sys2Proof.Machine
end

