-- ==== Sys2Proof/Machine/Operands.lean ====
section
/-! DEFINITION. Operand resolution (30_encoding.md R53 to R56, R60 step 6, R61). -/

namespace Sys2Proof.Machine

/-- Value resolution, `val` (R54): only the encoded word is checked, never the content of a register. -/
def State.value (s : State) : Operand → Except Cause Word
  | .literal v => .ok (v.setWidth 16)
  | .register r => .ok (s.getReg r)
  | .invalid w => .error ⟨.invalidOperand, w⟩

/-- Register-destination resolution, `reg` (R55): the register's content is not read. -/
def destination : Operand → Except Cause RegNum
  | .register r => .ok r
  | .literal v => .error ⟨.invalidAddress, (Operand.literal v).encode⟩
  | .invalid w => .error ⟨.invalidAddress, w⟩

/-- Resolve an operand in a value role and go on with the value, or raise. -/
def withValue (w : Operand) (s : State) (k : Word → Result) : Result :=
  match s.value w with
  | .ok v => k v
  | .error c => .next (s.raise c)

/-- Resolve an operand in a destination role and go on with the register number, or raise. -/
def withDest (a : Operand) (s : State) (k : RegNum → Result) : Result :=
  match destination a with
  | .ok r => k r
  | .error c => .next (s.raise c)

/-- Roles `D V`, in order (R60 step 6, R61). -/
def withDV (a b : Operand) (s : State) (k : RegNum → Word → Result) : Result :=
  withDest a s fun d => withValue b s fun v => k d v

/-- Roles `V V`, in order. -/
def withVV (a b : Operand) (s : State) (k : Word → Word → Result) : Result :=
  withValue a s fun v => withValue b s fun w => k v w

/-- Roles `D V V`, in order. -/
def withDVV (a b c : Operand) (s : State) (k : RegNum → Word → Word → Result) : Result :=
  withDest a s fun d => withVV b c s fun v w => k d v w

/-- The role of an operand position (R61). -/
inductive Role where
  | dest
  | value
  deriving DecidableEq, Repr

/-- The operands of an instruction in encoding order, each with its role: the table of R61. -/
def operandRoles : Instr → List (Role × Operand)
  | .halt => []
  | .set a b => [(.dest, a), (.value, b)]
  | .push a => [(.value, a)]
  | .pop a => [(.dest, a)]
  | .eq a b c => [(.dest, a), (.value, b), (.value, c)]
  | .gt a b c => [(.dest, a), (.value, b), (.value, c)]
  | .jmp a => [(.value, a)]
  | .jt a b => [(.value, a), (.value, b)]
  | .jf a b => [(.value, a), (.value, b)]
  | .add a b c => [(.dest, a), (.value, b), (.value, c)]
  | .mult a b c => [(.dest, a), (.value, b), (.value, c)]
  | .mod a b c => [(.dest, a), (.value, b), (.value, c)]
  | .and a b c => [(.dest, a), (.value, b), (.value, c)]
  | .or a b c => [(.dest, a), (.value, b), (.value, c)]
  | .not a b => [(.dest, a), (.value, b)]
  | .rmem a b => [(.dest, a), (.value, b)]
  | .wmem a b => [(.value, a), (.value, b)]
  | .call a => [(.value, a)]
  | .ret => []
  | .out a => [(.value, a)]
  | .input a => [(.dest, a)]
  | .noop => []

end Sys2Proof.Machine
end

