-- ==== Sys2Proof/Machine/Alu.lean ====
section
/-! DEFINITION. `add`, `mult`, `mod`, `and`, `or`, `not` (44_alu.md). -/

namespace Sys2Proof.Machine

/-- A two-operand computation into a register: the shape of every format `W4` instruction whose result the
two values alone decide (30_encoding.md R51, 44_alu.md R95). -/
def binaryOp (f : Word → Word → Word) (a b c : Operand) (s : State) : Result :=
  withDVV a b c s fun d v w => .next ((s.setReg d (f v w)).advance 4)

/-- The sum over the naturals, reduced modulo 32768 (R95, R96). -/
def addWord (b c : Word) : Word := BitVec.ofNat 16 ((b.toNat + c.toNat) % Config.valueMod)

/-- The product over the naturals, reduced modulo 32768 (R95, R97). -/
def multWord (b c : Word) : Word := BitVec.ofNat 16 ((b.toNat * c.toNat) % Config.valueMod)

/-- The unsigned remainder at native width (R98); used for a divisor that is not 0. -/
def modWord (b c : Word) : Word := BitVec.ofNat 16 (b.toNat % c.toNat)

/-- The 15-bit complement; bit 15 of the result is 0 (R101). -/
def notWord (b : Word) : Word := ~~~b &&& 0x7FFF

/-- R96. -/
def execAdd (a b c : Operand) (s : State) : Result := binaryOp addWord a b c s

/-- R97. -/
def execMult (a b c : Operand) (s : State) : Result := binaryOp multWord a b c s

/-- R98: a divisor of 0 raises `ModByZero` with the encoded operand word `c`. -/
def execMod (a b c : Operand) (s : State) : Result :=
  withDVV a b c s fun d v w =>
    if w = 0 then .next (s.raise ⟨.modByZero, c.encode⟩)
    else .next ((s.setReg d (modWord v w)).advance 4)

/-- R99: all 16 bit positions. -/
def execAnd (a b c : Operand) (s : State) : Result := binaryOp (· &&& ·) a b c s

/-- R100: all 16 bit positions. -/
def execOr (a b c : Operand) (s : State) : Result := binaryOp (· ||| ·) a b c s

/-- R101. -/
def execNot (a b : Operand) (s : State) : Result :=
  withDV a b s fun d v => .next ((s.setReg d (notWord v)).advance 3)

end Sys2Proof.Machine
end

