-- ==== Sys2Proof/Machine/Flags.lean ====
section
/-! DEFINITION. The machine has no flags (10_state.md R18): a comparison's result is a word for a general
register, and a condition is an operand value tested against zero. These are the computations that flags
would hold elsewhere. -/

namespace Sys2Proof.Machine

/-- A truth value as a comparison writes it: exactly 1 or 0 (R18). -/
def truthWord (p : Bool) : Word := if p then 1 else 0

/-- Equality of the full 16-bit values (42_compare.md R80). -/
def eqWord (b c : Word) : Word := truthWord (decide (b = c))

/-- Unsigned greater-than of the full 16-bit values (42_compare.md R81). -/
def gtWord (b c : Word) : Word := truthWord (decide (c.toNat < b.toNat))

/-- The condition of `jt` and `jf`, on all 16 bits (43_control_transfer.md R86, R87). -/
def isZero (v : Word) : Bool := decide (v = 0)

end Sys2Proof.Machine
end

