-- ==== Sys2Proof/Machine/Compare.lean ====
section
/-! DEFINITION. `eq` and `gt` (42_compare.md). -/

namespace Sys2Proof.Machine

/-- R80. -/
def execEq (a b c : Operand) (s : State) : Result := binaryOp eqWord a b c s

/-- R81. -/
def execGt (a b c : Operand) (s : State) : Result := binaryOp gtWord a b c s

end Sys2Proof.Machine
end

