-- ==== Sys2Proof/Machine/Control.lean ====
section
/-! DEFINITION. `jmp`, `jt`, `jf`, `call`, `ret` (43_control_transfer.md). A target is never checked when
it is loaded into `pc` (R90). -/

namespace Sys2Proof.Machine

/-- R85. -/
def execJmp (a : Operand) (s : State) : Result :=
  withValue a s fun v => .next (s.setPc v)

/-- A jump to `target` if `taken`, else the default advance over three cells (R86, R87). -/
def branch (taken : Bool) (target : Word) (s : State) : Result :=
  if taken then .next (s.setPc target) else .next (s.advance 3)

/-- R86: both operands are resolved before the test. -/
def execJt (a b : Operand) (s : State) : Result :=
  withVV a b s fun v t => branch (!isZero v) t s

/-- R87. -/
def execJf (a b : Operand) (s : State) : Result :=
  withVV a b s fun v t => branch (isZero v) t s

/-- R88: the target is resolved before the return address `pc + 2` is pushed. -/
def execCall (a : Operand) (s : State) : Result :=
  withValue a s fun t => .next ((s.pushWord (s.pc + 2)).setPc t)

/-- R89. -/
def execRet (s : State) : Result :=
  match s.stack with
  | [] => .next (s.halt .emptyReturn)
  | v :: st => .next ((s.setStack st).setPc v)

end Sys2Proof.Machine
end

