-- ==== Sys2Proof/Machine/Io.lean ====
section
/-! DEFINITION. `out` and `in` (46_io.md), and the I/O Channel as the core sees it. -/

namespace Sys2Proof.Machine

/-- R110: bits 7..0 of the value. -/
def execOut (a : Operand) (s : State) : Result :=
  withValue a s fun v => .next ((s.emit (v.setWidth 8)).advance 2)

/-- The effect of a debug directive (60_exceptions.md R132): out-of-bounds arguments change nothing. -/
def applyDirective (d : Directive) (s : State) : State :=
  match d with
  | .wmem addr val =>
    if addr < Config.memWords ∧ val < 65536 then s.setCell addr (BitVec.ofNat 16 val) else s
  | .wreg reg val =>
    if reg < 8 ∧ val < 65536 then s.setReg (Fin.ofNat 8 reg) (BitVec.ofNat 16 val) else s
  | .debug => { s with traceOn := !s.traceOn }
  | .malformed => s

/-- The effect of directives, first to last. -/
def applyDirectives : List Directive → State → State
  | [], s => s
  | d :: ds, s => applyDirectives ds (applyDirective d s)

/-- The completion of an `in` into register `r` with the code `c`, the queue keeping `rest` (R111). -/
def State.deliver (s : State) (r : RegNum) (c : Word) (rest : List Word) : State :=
  ({ s with input := rest, waiting := none }.setReg r c).advance 2

/-- The channel's pull (R114, R115): each directive line met is applied to the state and the next line pulled,
until an ordinary line is found. The answer is its codes and the state with the lines behind it left; `none`
where no ordinary line is left. -/
def pullLine : List InputLine → State → Option (List Word × State)
  | [], _ => none
  | .text cs :: ls, s => some (cs, { s with lines := ls })
  | .directive d :: ls, s => pullLine ls (applyDirective d s)

/-- An `in` whose destination is resolved asks the channel for a code (R111, R114 to R117).
A pending code is delivered. With none pending the channel pulls an ordinary line, which is enqueued with its
terminator and its first code delivered. The `in` has a step only when a code is so delivered (R116): with no
ordinary line left there is none, and the directive lines that are left are the host's moves
(`State.hostMove`). That the directive lines ahead of the ordinary one act within this step, where the host has
not moved them before it, is log 6. -/
def serveInput (r : RegNum) (s : State) : Result :=
  match s.input with
  | c :: rest => .next (s.deliver r c rest)
  | [] =>
    match pullLine s.lines s with
    | none => .fault .waitingForInput
    | some ([], t) => .next (t.deliver r t.lineTerm [])
    | some (c :: cs, t) => .next (t.deliver r c (cs ++ [t.lineTerm]))

/-- R111: the destination is resolved before any waiting. -/
def execIn (a : Operand) (s : State) : Result :=
  withDest a s fun r => serveInput r s

end Sys2Proof.Machine
end

