-- ==== Sys2Proof/Machine/MemoryAccess.lean ====
section
/-! DEFINITION. `rmem` and `wmem` (45_memory_access.md). -/

namespace Sys2Proof.Machine

/-- R105: the loaded word is copied as it is, unchecked and unreduced. -/
def execRmem (a b : Operand) (s : State) : Result :=
  withDV a b s fun d ea =>
    match s.memRead ea with
    | .ok v => .next ((s.setReg d v).advance 3)
    | .error c => .next (s.raise c)

/-- R106: the address operand is value-resolved (30_encoding.md R56). -/
def execWmem (a b : Operand) (s : State) : Result :=
  withVV a b s fun ea v =>
    match s.memWrite ea v with
    | .ok s' => .next (s'.advance 3)
    | .error c => .next (s.raise c)

end Sys2Proof.Machine
end

