-- ==== Sys2Proof/Machine/MoveStack.lean ====
section
/-! DEFINITION. `set`, `push`, `pop` (41_move_stack.md). -/

namespace Sys2Proof.Machine

/-- R75: all 16 bits are copied. -/
def execSet (a b : Operand) (s : State) : Result :=
  withDV a b s fun d v => .next ((s.setReg d v).advance 3)

/-- R76. -/
def execPush (a : Operand) (s : State) : Result :=
  withValue a s fun v => .next ((s.pushWord v).advance 2)

/-- R77: the destination is resolved before the stack is tested; the offending word of an underflow is the
opcode word, 3. -/
def execPop (a : Operand) (s : State) : Result :=
  withDest a s fun d =>
    match s.stack with
    | [] => .next (s.raise ⟨.stackUnderflow, 3⟩)
    | v :: st => .next (((s.setStack st).setReg d v).advance 2)

end Sys2Proof.Machine
end

