-- ==== Sys2Proof/Machine/System.lean ====
section
/-! DEFINITION. `halt` and `noop` (40_system.md). -/

namespace Sys2Proof.Machine

/-- R70. -/
def execHalt (s : State) : Result := .next (s.halt .explicit)

/-- R71. -/
def execNoop (s : State) : Result := .next (s.advance 1)

end Sys2Proof.Machine
end

