-- ==== Sys2Proof/Machine/Fetch.lean ====
section
/-! DEFINITION. Fetch and decode (30_encoding.md R60 steps 1 to 5), and placing an instruction where it
will be fetched. -/

namespace Sys2Proof.Machine

/-- The cells at `a` and upward that exist, at most `n` of them (20_memory.md R33). -/
def Memory.window (m : Memory) (a : Nat) : Nat → List Word
  | 0 => []
  | n + 1 => if a < Config.memWords then m.read a :: Memory.window m (a + 1) n else []

/-- The fatal condition of cells that spell no instruction: an opcode word above 21 (R60 step 3), or an
operand cell that does not exist, its address the offending word (step 5). -/
def decodeCause (pc : Word) : DecodeError → Cause
  | .invalidOpcode w => ⟨.invalidOpcode, w⟩
  | .missingCell k => ⟨.invalidAddress, pc + BitVec.ofNat 16 k⟩

/-- What steps 1 to 5 of R60 find. -/
inductive Fetched where
  | outOfRange
  | illegal (c : Cause)
  | instr (i : Instr)
  deriving DecidableEq, Repr

/-- Steps 1 to 5 of R60. -/
def State.fetch (s : State) : Fetched :=
  if Config.fetchLimit < s.pc.toNat + 1 then .outOfRange
  else
    match decode (s.mem.window s.pc.toNat maxCells) with
    | .ok (i, _) => .instr i
    | .error e => .illegal (decodeCause s.pc e)

/-- The address at which a longest instruction can be placed and fetched: `pc`, or 0 where memory ends
before its last cell. -/
def State.placeAddr (s : State) : Nat :=
  if s.pc.toNat + maxCells ≤ Config.memWords then s.pc.toNat else 0

/-- The state with `cells` where its next fetch will find them, ready to fetch. -/
def State.placeCells (s : State) (cells : List Word) : State :=
  { s with
    mem := s.mem.writeAll s.placeAddr cells
    pc := BitVec.ofNat 16 s.placeAddr
    run := .running
    waiting := none }

end Sys2Proof.Machine
end

