-- ==== Sys2Proof/Machine/Trace.lean ====
section
/-! DEFINITION. What port TRACE carries (60_exceptions.md R133): observation only. The text is out of scope
(00_scope.md R3); the content and the two moments are the rule's, the form of a record is the model's (log 9). -/

namespace Sys2Proof.Machine

/-- A resolved operand in its role. -/
def traceOperand (s : State) : Role × Operand → TraceOperand
  | (.dest, a) =>
    match destination a with
    | .ok r => .dest r
    | .error c => .unresolved c.word
  | (.value, a) =>
    match s.value a with
    | .ok v => .value v
    | .error c => .unresolved c.word

/-- The operands of `i` as they resolve in `s`. -/
def traceOperands (i : Instr) (s : State) : List TraceOperand := (operandRoles i).map (traceOperand s)

/-- A record of the state `s` at one of the two moments of a step of `i`. -/
def traceRecord (phase : TracePhase) (i : Instr) (ops : List TraceOperand) (s : State) : TraceRecord where
  phase := phase
  instr := i
  operands := ops
  regs := s.regs
  depth := s.stack.length
  top := s.stack.head?

/-- The record before the mutation, emitted when the flag is set. -/
def recordBefore (i : Instr) (s : State) : List TraceRecord :=
  if s.traceOn then [traceRecord .before i (traceOperands i s) s] else []

/-- The record after the mutation, emitted when the flag is then set. -/
def recordAfter (i : Instr) (ops : List TraceOperand) (s' : State) : List TraceRecord :=
  if s'.traceOn then [traceRecord .after i ops s'] else []

/-- Append records to what port TRACE has carried. -/
def Result.traced (r : Result) (recs : State → List TraceRecord) : Result :=
  match r with
  | .next s' => .next { s' with traceLog := s'.traceLog ++ recs s' }
  | .fault f => .fault f
  | .refused f => .refused f

/-- The trace of the step of one decoded instruction, whatever becomes of it. R133 says "each step" and does not
say what a step emits that aborts or halts: such a step emits both records too, also when it aborts in operand
resolution (R60 step 6), and there a word that does not resolve in its role is shown as `unresolved`.
DESIGN CHOICE, log 9. -/
def traceInstr (i : Instr) (s : State) (r : Result) : Result :=
  Result.traced r fun s' => recordBefore i s ++ recordAfter i (traceOperands i s) s'

/-- The trace of the step that completes a waiting `in` into register `r`: its record before was emitted when
the wait began (`State.enterWait`). -/
def traceWait (r : RegNum) (res : Result) : Result :=
  Result.traced res fun s' => recordAfter (.input (.register r)) [.dest r] s'

end Sys2Proof.Machine
end

