-- ==== Sys2Proof/Machine/HostMove.lean ====
section
/-! DEFINITION. What the host can do between two steps: offer a line, and move a debug directive during the
wait of an `in` (60_exceptions.md R132, 46_io.md R115). None of it is a step of the machine. -/

namespace Sys2Proof.Machine

/-- The host offers a line to the channel (00_scope.md R5, port IN): possible at any moment between steps. -/
def State.offerLine (s : State) (l : InputLine) : State := { s with lines := s.lines ++ [l] }

/-- The destination of the `in` at which the machine stands: the one that a wait already begun holds (D20), or
that of the `in` at `pc`. -/
def State.inDest (s : State) : Option RegNum :=
  match s.waiting with
  | some r => some r
  | none =>
    match s.fetch with
    | .instr (.input (.register r)) => some r
    | _ => none

/-- The wait of an `in` into register `r` has begun: its destination is held from then on (46_io.md R111, D20),
and the record before its mutation is emitted once, when the wait begins (60_exceptions.md R133; log 9). -/
def State.enterWait (s : State) (r : RegNum) : State :=
  { s with
    waiting := some r
    traceLog := s.traceLog ++ if s.waiting.isNone then recordBefore (.input (.register r)) s else [] }

/-- A host move (60_exceptions.md R132): while an `in` waits with an empty Input Queue, the directive line that
is next is consumed and applied, and the `in` goes on waiting. `none` where the host has no such move. -/
def State.hostMove (s : State) : Option State :=
  if s.run = .running ∧ s.input = [] then
    match s.lines, s.inDest with
    | .directive d :: ls, some r => some (applyDirective d ({ s with lines := ls }.enterWait r))
    | _, _ => none
  else none

end Sys2Proof.Machine
end

