-- ==== Sys2Proof/Machine/Step.lean ====
section
/-! DEFINITION. One step of the machine (30_encoding.md R60). -/

namespace Sys2Proof.Machine

/-- One step. A run that has ended takes none (10_state.md R17); a waiting `in` completes or has
no step (46_io.md R116); else an instruction is fetched, decoded and executed, and a fetch that finds
none halts or aborts. -/
def step (s : State) : Host.Outcome State Fault Refusal :=
  match s.run with
  | .halted _ => .fault .runEnded
  | .aborted _ _ _ => .fault .runEnded
  | .running =>
    match s.waiting with
    | some r => traceWait r (serveInput r s)
    | none =>
      match s.fetch with
      | .outOfRange => .next (s.halt .outOfRange)
      | .illegal c => .next (s.raise c)
      | .instr i => traceInstr i s (exec i s)

/-- `s` with the instruction of the bits `w` stored where the next step fetches it, and running, not
waiting, so that the next step fetches it. `pc` changes only where the last cells of memory could not hold a
longest instruction (`State.placeAddr`). From reset a program is loaded from outside, as the image; this
stands for that load (log 10). -/
def State.withFetchWord (s : State) (nbits w : Nat) : State := s.placeCells (tableCells nbits w)

end Sys2Proof.Machine
end

