-- ==== Sys2Proof/Machine/Image.lean ====
section
/-! DEFINITION. The program image and reset with an image (20_memory.md R34, R45, 70_reset_and_hazards.md
R140, R143). -/

namespace Sys2Proof.Machine

/-- Why the loader refuses an image; the block is never started (R34, R143). -/
inductive ImageError where
  /-- An odd number of bytes. -/
  | trailingPartialWord
  /-- More than 32768 words. -/
  | tooLong
  deriving DecidableEq, Repr

/-- The words of a byte stream, little-endian (R34). -/
def wordsOfBytes : List (BitVec 8) → Except ImageError (List Word)
  | [] => .ok []
  | [_] => .error .trailingPartialWord
  | lo :: hi :: bytes =>
    match wordsOfBytes bytes with
    | .ok ws => .ok (BitVec.ofNat 16 (lo.toNat + 256 * hi.toNat) :: ws)
    | .error e => .error e

/-- The memory that holds an image from address `a` upward and nothing else (R45). -/
def Memory.ofImage : Nat → List Word → Memory
  | _, [] => []
  | a, w :: ws => if w = Memory.unlisted then Memory.ofImage (a + 1) ws else (a, w) :: Memory.ofImage (a + 1) ws

/-- Reset with an image of at most 32768 words (R140). -/
def State.resetWith (image : List Word) : State := { State.reset with mem := Memory.ofImage 0 image }

/-- The loader and reset together: a byte stream to a running machine, or a refusal (R143). -/
def boot (bytes : List (BitVec 8)) : Except ImageError State :=
  match wordsOfBytes bytes with
  | .error e => .error e
  | .ok ws => if ws.length ≤ Config.memWords then .ok (State.resetWith ws) else .error .tooLong

end Sys2Proof.Machine
end

