-- ==== Sys2Proof/Safety.lean ====
section
/-! DEFINITION. What the claims call a good state and a safe run. -/

namespace Sys2Proof.Machine

/-- The wait of an `in` is coherent: the machine is running, the Input Queue is empty, and the `in` at `pc`
has its operand cell in memory (10_state.md R21, 60_exceptions.md R134). -/
def State.waitOk (s : State) : Bool :=
  s.waiting.isNone || (decide (s.run = .running) && s.input.isEmpty && decide (s.pc.toNat + 1 < Config.memWords))

/-- What every reachable state satisfies: memory in its canonical form, and a coherent wait. -/
def State.inv (s : State) : Bool := s.mem.wf && s.waitOk

/-- The value of a word of the Word range, 0..32767 (10_state.md R11). -/
def isWordValue (w : Word) : Bool := decide (w.toNat < Config.valueMod)

/-- A line that hands over only values of the Word range. -/
def lineInWordRange : InputLine → Bool
  | .text cs => cs.all isWordValue
  | .directive (.wmem _ v) => decide (v < Config.valueMod)
  | .directive (.wreg _ v) => decide (v < Config.valueMod)
  | .directive .debug => true
  | .directive .malformed => true

/-- Every register, stack element, pending code and line is in the Word range (10_state.md R11). -/
def State.inWordRange (s : State) : Bool :=
  s.regs.toList.all isWordValue && s.stack.all isWordValue && s.input.all isWordValue &&
    s.lines.all lineInWordRange && isWordValue s.lineTerm

/-- The run has not ended in a fatal condition. -/
def State.notAborted (s : State) : Bool :=
  match s.run with
  | .running => true
  | .halted _ => true
  | .aborted _ _ _ => false

/-- A run of at most `n` steps from `s` reaches no fatal condition. Host moves between the steps end no run, and
the directives they consume are those of `State.lines`, which the step of the `in` consumes alike (log 6). -/
def SafeRun : Nat → State → Prop
  | 0, s => s.notAborted = true
  | n + 1, s => s.notAborted = true ∧ ∀ s', step s = .next s' → SafeRun n s'

/-- The state without its trace: flag clear, nothing emitted. Two states are alike but for the trace when
these are equal (60_exceptions.md R133). -/
def State.untraced (s : State) : State := { s with traceOn := false, traceLog := [] }

/-- A result without the trace of its next state. -/
def Result.untraced (r : Result) : Result :=
  match r with
  | .next s => .next s.untraced
  | .fault f => .fault f
  | .refused f => .refused f

end Sys2Proof.Machine
end

