-- ==== Sys2Proof/Certificates/Slice0/Obligations.lean ====
section
/-! DEFINITION. The statements, with the words of the spec they are made of.

The instruction statements speak of encoded operand words `a b c`, any of the 65536 values, through the
spec's own tables of 30_encoding.md R53 to R55 written out here (`Spec.val`, `Spec.reg`), not through the
model's resolver. Each says how the cells decode, the next state for operands that resolve, and the fatal
condition for operands that do not. A next state is written as a whole record, so it is also the frame: a
field that is not named is unchanged.

Where a clause rests on a decision of the spec (92_eei_decisions.md) its docstring says so. That a fatal
condition leaves everything but the run state alone and which word it records are the spec's D10, which of
the names `InvalidOperand` and `InvalidAddress` is used is D8, and the order of the checks is D9 (log 3). -/

open Sys2Proof Sys2Proof.Machine

namespace Sys2Proof.Spec

/-- The register number of a selector word (R53). -/
def regNum (w : Word) : RegNum := Fin.ofNat 8 (w.toNat - 32768)

/-- `val(w)` of R54, `none` where it raises. -/
def val (s : State) (w : Word) : Option Word :=
  if w.toNat ≤ 32767 then some w
  else if w.toNat ≤ 32775 then some s.regs[regNum w]
  else none

/-- `reg(w)` of R55, `none` where it raises. -/
def reg (w : Word) : Option RegNum :=
  if 32768 ≤ w.toNat ∧ w.toNat ≤ 32775 then some (regNum w) else none

/-- `raise K(word)` of R125. -/
def aborts (s : State) (k : AbortKind) (w : Word) : Result := .next { s with run := .aborted k s.pc w }

/-- Cells of format `W2` with this opcode word decode to this constructor (R51). -/
def Encodes1 (op : Word) (mk : Operand → Instr) : Prop :=
  ∀ a rest, decode (op :: a :: rest) = .ok (mk (.ofWord a), rest)

/-- The same for format `W3`. -/
def Encodes2 (op : Word) (mk : Operand → Operand → Instr) : Prop :=
  ∀ a b rest, decode (op :: a :: b :: rest) = .ok (mk (.ofWord a) (.ofWord b), rest)

/-- The same for format `W4`. -/
def Encodes3 (op : Word) (mk : Operand → Operand → Operand → Instr) : Prop :=
  ∀ a b c rest, decode (op :: a :: b :: c :: rest) = .ok (mk (.ofWord a) (.ofWord b) (.ofWord c), rest)

/-- The operand fault of role `V` (R60 step 6, R61). -/
def FaultsV (mk : Operand → Instr) : Prop :=
  ∀ s a, val s a = none → exec (mk (.ofWord a)) s = aborts s .invalidOperand a

/-- The operand fault of role `D`. -/
def FaultsD (mk : Operand → Instr) : Prop :=
  ∀ s a, reg a = none → exec (mk (.ofWord a)) s = aborts s .invalidAddress a

/-- The operand faults of roles `V V`, `a` first. -/
def FaultsVV (mk : Operand → Operand → Instr) : Prop :=
  ∀ s a b,
    (val s a = none → exec (mk (.ofWord a) (.ofWord b)) s = aborts s .invalidOperand a) ∧
    (∀ v, val s a = some v → val s b = none →
      exec (mk (.ofWord a) (.ofWord b)) s = aborts s .invalidOperand b)

/-- The operand faults of roles `D V`, `a` first. -/
def FaultsDV (mk : Operand → Operand → Instr) : Prop :=
  ∀ s a b,
    (reg a = none → exec (mk (.ofWord a) (.ofWord b)) s = aborts s .invalidAddress a) ∧
    (∀ d, reg a = some d → val s b = none →
      exec (mk (.ofWord a) (.ofWord b)) s = aborts s .invalidOperand b)

/-- The operand faults of roles `D V V`, `a` first, then `b`, then `c`. -/
def FaultsDVV (mk : Operand → Operand → Operand → Instr) : Prop :=
  ∀ s a b c,
    (reg a = none → exec (mk (.ofWord a) (.ofWord b) (.ofWord c)) s = aborts s .invalidAddress a) ∧
    (∀ d, reg a = some d → val s b = none →
      exec (mk (.ofWord a) (.ofWord b) (.ofWord c)) s = aborts s .invalidOperand b) ∧
    (∀ d v, reg a = some d → val s b = some v → val s c = none →
      exec (mk (.ofWord a) (.ofWord b) (.ofWord c)) s = aborts s .invalidOperand c)

end Sys2Proof.Spec

/-! ## The instructions -/

/-- 40_system.md R70. That `pc` stays is the spec's decision D11 (log 3). -/
def Obligations.HaltEndsTheRunInPlace : Prop :=
  (∀ rest, decode (0 :: rest) = .ok (.halt, rest)) ∧
  ∀ s, exec .halt s = .next { s with run := .halted .explicit }

/-- 40_system.md R71. -/
def Obligations.NoopOnlyAdvances : Prop :=
  (∀ rest, decode (21 :: rest) = .ok (.noop, rest)) ∧
  ∀ s, exec .noop s = .next { s with pc := s.pc + 1 }

/-- 41_move_stack.md R75. -/
def Obligations.SetCopiesSixteenBits : Prop :=
  Spec.Encodes2 1 .set ∧ Spec.FaultsDV .set ∧
  ∀ s a b d v, Spec.reg a = some d → Spec.val s b = some v →
    exec (.set (.ofWord a) (.ofWord b)) s = .next { s with regs := s.regs.set d v, pc := s.pc + 3 }

/-- 41_move_stack.md R76. -/
def Obligations.PushMakesTheValueTheTop : Prop :=
  Spec.Encodes1 2 .push ∧ Spec.FaultsV .push ∧
  ∀ s a v, Spec.val s a = some v →
    exec (.push (.ofWord a)) s = .next { s with stack := v :: s.stack, pc := s.pc + 2 }

/-- 41_move_stack.md R77. The order (destination before stack) is D9, the recorded word 3 is D10 (log 3). -/
def Obligations.PopTakesTheTopOrUnderflows : Prop :=
  Spec.Encodes1 3 .pop ∧ Spec.FaultsD .pop ∧
  (∀ s a d, Spec.reg a = some d → s.stack = [] →
    exec (.pop (.ofWord a)) s = Spec.aborts s .stackUnderflow 3) ∧
  ∀ s a d v st, Spec.reg a = some d → s.stack = v :: st →
    exec (.pop (.ofWord a)) s = .next { s with regs := s.regs.set d v, stack := st, pc := s.pc + 2 }

/-- 42_compare.md R80. -/
def Obligations.EqWritesOneOrZero : Prop :=
  Spec.Encodes3 4 .eq ∧ Spec.FaultsDVV .eq ∧
  ∀ s a b c d v w, Spec.reg a = some d → Spec.val s b = some v → Spec.val s c = some w →
    exec (.eq (.ofWord a) (.ofWord b) (.ofWord c)) s =
      .next { s with regs := s.regs.set d (if v.toNat = w.toNat then 1 else 0), pc := s.pc + 4 }

/-- 42_compare.md R81: unsigned, full 16-bit values. -/
def Obligations.GtComparesUnsigned : Prop :=
  Spec.Encodes3 5 .gt ∧ Spec.FaultsDVV .gt ∧
  ∀ s a b c d v w, Spec.reg a = some d → Spec.val s b = some v → Spec.val s c = some w →
    exec (.gt (.ofWord a) (.ofWord b) (.ofWord c)) s =
      .next { s with regs := s.regs.set d (if v.toNat > w.toNat then 1 else 0), pc := s.pc + 4 }

/-- 43_control_transfer.md R85: any 16-bit target, unchecked. -/
def Obligations.JmpLoadsAnyTarget : Prop :=
  Spec.Encodes1 6 .jmp ∧ Spec.FaultsV .jmp ∧
  ∀ s a v, Spec.val s a = some v → exec (.jmp (.ofWord a)) s = .next { s with pc := v }

/-- 43_control_transfer.md R86. That the target is resolved even when the jump is not taken is D9 (log 3). -/
def Obligations.JtJumpsOnNonZero : Prop :=
  Spec.Encodes2 7 .jt ∧ Spec.FaultsVV .jt ∧
  ∀ s a b v t, Spec.val s a = some v → Spec.val s b = some t →
    exec (.jt (.ofWord a) (.ofWord b)) s =
      .next { s with pc := if v.toNat ≠ 0 then t else s.pc + 3 }

/-- 43_control_transfer.md R87. -/
def Obligations.JfJumpsOnZero : Prop :=
  Spec.Encodes2 8 .jf ∧ Spec.FaultsVV .jf ∧
  ∀ s a b v t, Spec.val s a = some v → Spec.val s b = some t →
    exec (.jf (.ofWord a) (.ofWord b)) s =
      .next { s with pc := if v.toNat = 0 then t else s.pc + 3 }

/-- 43_control_transfer.md R88. That nothing is pushed when the target does not resolve is D10 (log 3). -/
def Obligations.CallPushesTheReturnAddress : Prop :=
  Spec.Encodes1 17 .call ∧ Spec.FaultsV .call ∧
  ∀ s a v, Spec.val s a = some v →
    exec (.call (.ofWord a)) s = .next { s with stack := (s.pc + 2) :: s.stack, pc := v }

/-- 43_control_transfer.md R89. That `pc` stays at the `ret` of an empty stack is D11 (log 3). -/
def Obligations.RetPopsOrHalts : Prop :=
  (∀ rest, decode (18 :: rest) = .ok (.ret, rest)) ∧
  (∀ s, s.stack = [] → exec .ret s = .next { s with run := .halted .emptyReturn }) ∧
  ∀ s v st, s.stack = v :: st → exec .ret s = .next { s with stack := st, pc := v }

/-- 44_alu.md R96. -/
def Obligations.AddWritesTheSumModulo32768 : Prop :=
  Spec.Encodes3 9 .add ∧ Spec.FaultsDVV .add ∧
  ∀ s a b c d v w, Spec.reg a = some d → Spec.val s b = some v → Spec.val s c = some w →
    exec (.add (.ofWord a) (.ofWord b) (.ofWord c)) s =
      .next { s with regs := s.regs.set d (BitVec.ofNat 16 ((v.toNat + w.toNat) % 32768)), pc := s.pc + 4 }

/-- 44_alu.md R97. -/
def Obligations.MultWritesTheProductModulo32768 : Prop :=
  Spec.Encodes3 10 .mult ∧ Spec.FaultsDVV .mult ∧
  ∀ s a b c d v w, Spec.reg a = some d → Spec.val s b = some v → Spec.val s c = some w →
    exec (.mult (.ofWord a) (.ofWord b) (.ofWord c)) s =
      .next { s with regs := s.regs.set d (BitVec.ofNat 16 ((v.toNat * w.toNat) % 32768)), pc := s.pc + 4 }

/-- 44_alu.md R98. That a zero divisor is the fatal condition `ModByZero` is D7 (log 5). -/
def Obligations.ModWritesTheRemainderOrAborts : Prop :=
  Spec.Encodes3 11 .mod ∧ Spec.FaultsDVV .mod ∧
  (∀ s a b c d v, Spec.reg a = some d → Spec.val s b = some v → Spec.val s c = some 0 →
    exec (.mod (.ofWord a) (.ofWord b) (.ofWord c)) s = Spec.aborts s .modByZero c) ∧
  ∀ s a b c d v w, Spec.reg a = some d → Spec.val s b = some v → Spec.val s c = some w → w ≠ 0 →
    exec (.mod (.ofWord a) (.ofWord b) (.ofWord c)) s =
      .next { s with regs := s.regs.set d (BitVec.ofNat 16 (v.toNat % w.toNat)), pc := s.pc + 4 }

/-- 44_alu.md R99: all 16 bit positions. -/
def Obligations.AndIsBitwiseAtFullWidth : Prop :=
  Spec.Encodes3 12 .and ∧ Spec.FaultsDVV .and ∧
  ∀ s a b c d v w, Spec.reg a = some d → Spec.val s b = some v → Spec.val s c = some w →
    exec (.and (.ofWord a) (.ofWord b) (.ofWord c)) s =
      .next { s with regs := s.regs.set d (BitVec.ofNat 16 (v.toNat &&& w.toNat)), pc := s.pc + 4 }

/-- 44_alu.md R100: all 16 bit positions. -/
def Obligations.OrIsBitwiseAtFullWidth : Prop :=
  Spec.Encodes3 13 .or ∧ Spec.FaultsDVV .or ∧
  ∀ s a b c d v w, Spec.reg a = some d → Spec.val s b = some v → Spec.val s c = some w →
    exec (.or (.ofWord a) (.ofWord b) (.ofWord c)) s =
      .next { s with regs := s.regs.set d (BitVec.ofNat 16 (v.toNat ||| w.toNat)), pc := s.pc + 4 }

/-- 44_alu.md R101, as the arithmetic reading the rule gives beside the bitwise one. -/
def Obligations.NotComplementsFifteenBits : Prop :=
  Spec.Encodes2 14 .not ∧ Spec.FaultsDV .not ∧
  ∀ s a b d v, Spec.reg a = some d → Spec.val s b = some v →
    exec (.not (.ofWord a) (.ofWord b)) s =
      .next { s with regs := s.regs.set d (BitVec.ofNat 16 (32767 - v.toNat % 32768)), pc := s.pc + 3 }

/-- 45_memory_access.md R105. The abort on an address from 32768 up is D5 (log 4). -/
def Obligations.RmemLoadsOneCell : Prop :=
  Spec.Encodes2 15 .rmem ∧ Spec.FaultsDV .rmem ∧
  (∀ s a b d ea, Spec.reg a = some d → Spec.val s b = some ea → 32768 ≤ ea.toNat →
    exec (.rmem (.ofWord a) (.ofWord b)) s = Spec.aborts s .invalidAddress ea) ∧
  ∀ s a b d ea, Spec.reg a = some d → Spec.val s b = some ea → ea.toNat ≤ 32767 →
    exec (.rmem (.ofWord a) (.ofWord b)) s =
      .next { s with regs := s.regs.set d (s.mem.read ea.toNat), pc := s.pc + 3 }

/-- 45_memory_access.md R106, with the frame of memory cell by cell: the address stored to is the value of
`a`, and every other cell reads as before. The premise `s.mem.wf` is the canonical form of memory, which
`StepKeepsTheInvariant` says every step keeps. The abort on an address from 32768 up is D4 (log 4). -/
def Obligations.WmemStoresOneCell : Prop :=
  Spec.Encodes2 16 .wmem ∧ Spec.FaultsVV .wmem ∧
  (∀ s a b ea v, Spec.val s a = some ea → Spec.val s b = some v → 32768 ≤ ea.toNat →
    exec (.wmem (.ofWord a) (.ofWord b)) s = Spec.aborts s .invalidAddress ea) ∧
  ∀ s a b ea v, s.mem.wf = true → Spec.val s a = some ea → Spec.val s b = some v → ea.toNat ≤ 32767 →
    ∃ m : Memory, exec (.wmem (.ofWord a) (.ofWord b)) s = .next { s with mem := m, pc := s.pc + 3 } ∧
      m.wf = true ∧ m.read ea.toNat = v ∧ ∀ x, x ≠ ea.toNat → m.read x = s.mem.read x

/-- 46_io.md R110. -/
def Obligations.OutEmitsTheLowEightBits : Prop :=
  Spec.Encodes1 19 .out ∧ Spec.FaultsV .out ∧
  ∀ s a v, Spec.val s a = some v →
    exec (.out (.ofWord a)) s =
      .next { s with output := s.output ++ [BitVec.ofNat 8 (v.toNat % 256)], pc := s.pc + 2 }

/-- 46_io.md R111, R114 to R117: the destination is resolved before anything is consumed (D20), a pending code
is delivered at once, an empty queue is refilled by one ordinary line and its terminator, and with no code and
no ordinary line left the `in` has no step (R116; at end of input D14). The width of a code is D14 (log 8).
That the directive lines ahead of the ordinary one act within this step is log 6, and `waitingForInput` is the
model's name for no step (log 8). -/
def Obligations.InDeliversOneCodeOrSticks : Prop :=
  Spec.Encodes1 20 .input ∧ Spec.FaultsD .input ∧
  (∀ s a r c q, Spec.reg a = some r → s.input = c :: q →
    exec (.input (.ofWord a)) s =
      .next { s with regs := s.regs.set r c, input := q, waiting := none, pc := s.pc + 2 }) ∧
  (∀ s a r cs ls c q, Spec.reg a = some r → s.input = [] → s.lines = .text cs :: ls →
    cs ++ [s.lineTerm] = c :: q →
    exec (.input (.ofWord a)) s =
      .next { s with regs := s.regs.set r c, input := q, lines := ls, waiting := none, pc := s.pc + 2 }) ∧
  (∀ s a r (ds : List Directive) cs ls c q, Spec.reg a = some r → s.input = [] →
    s.lines = ds.map .directive ++ .text cs :: ls → cs ++ [s.lineTerm] = c :: q →
    exec (.input (.ofWord a)) s =
      .next { applyDirectives ds s with
        regs := (applyDirectives ds s).regs.set r c, input := q, lines := ls, waiting := none, pc := s.pc + 2 }) ∧
  ∀ s a r, Spec.reg a = some r → s.input = [] → (∀ cs, .text cs ∉ s.lines) →
    exec (.input (.ofWord a)) s = .fault .waitingForInput

/-! ## Operands and decoding -/

/-- 30_encoding.md R54, on every encoded word. -/
def Obligations.ValueResolutionFollowsTheWord : Prop :=
  ∀ (s : State) (w : Word),
    (w.toNat ≤ 32767 → s.value (.ofWord w) = .ok w) ∧
    (32768 ≤ w.toNat → w.toNat ≤ 32775 → s.value (.ofWord w) = .ok s.regs[Fin.ofNat 8 (w.toNat - 32768)]) ∧
    (32776 ≤ w.toNat → s.value (.ofWord w) = .error ⟨.invalidOperand, w⟩)

/-- 30_encoding.md R55, on every encoded word; the name `InvalidAddress` is D8 (log 3). -/
def Obligations.DestinationResolutionFollowsTheWord : Prop :=
  ∀ w : Word,
    (32768 ≤ w.toNat → w.toNat ≤ 32775 →
      destination (.ofWord w) = .ok (Fin.ofNat 8 (w.toNat - 32768))) ∧
    (w.toNat ≤ 32767 ∨ 32776 ≤ w.toNat → destination (.ofWord w) = .error ⟨.invalidAddress, w⟩)

/-- Every well-formed instruction is what its cells decode to, whatever follows them (30_encoding.md R50,
R51, R53, R57). -/
def Obligations.DecodeReadsBackEncode : Prop :=
  ∀ (i : Instr) (rest : List Word), i.wf = true → decode (encode i ++ rest) = .ok (i, rest)

/-- Every cell sequence that decodes is the encoding of a well-formed instruction and what is left over: a
word has one meaning. -/
def Obligations.EncodeWritesBackDecode : Prop :=
  ∀ (cells rest : List Word) (i : Instr), decode cells = .ok (i, rest) →
    i.wf = true ∧ cells = encode i ++ rest

/-- 30_encoding.md R52: the opcode word is compared as a whole number with 0..21. -/
def Obligations.OpcodeIsTheWholeCell : Prop :=
  ∀ (op : Word) (rest : List Word),
    decode (op :: rest) = .error (.invalidOpcode op) ↔ 22 ≤ op.toNat

/-- Words written out from the tables of 30_encoding.md R51 and R57 decode as they should. -/
def Obligations.SpelledWordsDecode : Prop :=
  decode [9, 32768, 32769, 4, 19] = .ok (.add (.register 0) (.register 1) (.literal 4), [19]) ∧
  decode [16, 20, 32768] = .ok (.wmem (.literal 20) (.register 0), []) ∧
  decode [7, 32775, 32767] = .ok (.jt (.register 7) (.literal 32767), []) ∧
  decode [20, 32776] = .ok (.input (.invalid 32776), []) ∧
  decode [21] = .ok (.noop, []) ∧
  decode [256] = .error (.invalidOpcode 256)

/-! ## The step -/

/-- 30_encoding.md R60: when the cells at `pc` spell a well-formed instruction, the step executes it. Around
`exec` the step adds the trace and nothing else. -/
def Obligations.StepRunsTheDecodedInstruction : Prop :=
  ∀ (s : State) (i : Instr), s.run = .running → s.waiting = none → i.wf = true →
    s.pc.toNat + (encode i).length ≤ 32768 →
    (∀ k (h : k < (encode i).length), s.mem.read (s.pc.toNat + k) = (encode i)[k]) →
    step s = traceInstr i s (exec i s)

/-- With the trace flag clear the step of an instruction is `exec` itself, the trace log too unchanged: but for
an `in` that consumes a `.debug` directive, which then has a record after (60_exceptions.md R132, R133). That
the directive acts within the step is log 6, the form of the record log 9. -/
def Obligations.UntracedStepIsExec : Prop :=
  ∀ (s : State) (i : Instr), s.run = .running → s.waiting = none → s.traceOn = false →
    s.fetch = .instr i →
    step s = exec i s ∨
    ∃ r u, i = .input (.register r) ∧ s.input = [] ∧ .directive .debug ∈ s.lines ∧ exec i s = .next u ∧
      u.traceOn = true ∧
      step s = .next { u with traceLog := s.traceLog ++
        [⟨.after, i, traceOperands i s, u.regs, u.stack.length, u.stack.head?⟩] }

/-- 30_encoding.md R60 step 1, 10_state.md R15: a `pc` beyond memory halts gracefully, in place. The limit
32768 is D1 (log 12), the unchanged `pc` D11 (log 3). -/
def Obligations.FetchBeyondMemoryHalts : Prop :=
  ∀ s : State, s.run = .running → s.waiting = none → 32768 ≤ s.pc.toNat →
    step s = .next { s with run := .halted .outOfRange }

/-- 30_encoding.md R58, R60 step 3: an opcode word above 21 aborts, before any operand cell is looked at.
The recorded word and the precise abort are D10, the order D9 (log 3). -/
def Obligations.IllegalOpcodeAborts : Prop :=
  ∀ s : State, s.run = .running → s.waiting = none → s.pc.toNat ≤ 32767 →
    22 ≤ (s.mem.read s.pc.toNat).toNat →
    step s = Spec.aborts s .invalidOpcode (s.mem.read s.pc.toNat)

/-- 20_memory.md R33, 30_encoding.md R60 step 5: an instruction whose cells run past the last cell of memory
aborts with the address of the first cell that does not exist, before any operand is resolved. This is the
spec's decision D6 (log 4). -/
def Obligations.OperandCellBeyondMemoryAborts : Prop :=
  ∀ (s : State) (i : Instr), s.run = .running → s.waiting = none → s.pc.toNat ≤ 32767 →
    (encode i).head? = some (s.mem.read s.pc.toNat) → 32768 < s.pc.toNat + i.length →
    step s = Spec.aborts s .invalidAddress 32768

/-- 10_state.md R17: states other than `Running` are terminal (that they are absorbing is D12, log 14). -/
def Obligations.EndedRunTakesNoStep : Prop :=
  ∀ s : State, s.run ≠ .running → step s = .fault .runEnded

/-- The one list of what a step can be: it goes on, or the run has ended, or an `in` finds no code and no
ordinary line, where 46_io.md R116 gives it no step, whatever directives are left. It is never refused. That an
ended run has no step is the spec's decision D12 and its name `runEnded` the model's (log 14). That an `in` at
end of input has no step is D14, and the name `waitingForInput` the model's (R117; log 8). -/
def Obligations.StepStopsOnlyAtTheEndOrForInput : Prop :=
  ∀ s : State,
    (∃ t, step s = .next t) ∨
    (step s = .fault .runEnded ∧ s.run ≠ .running) ∨
    (step s = .fault .waitingForInput ∧ s.run = .running ∧ s.input = [] ∧ (∀ cs, .text cs ∉ s.lines) ∧
      (s.waiting.isSome = true ∨ ∃ r, s.fetch = .instr (.input (.register r))))

/-! ## Waiting for input -/

/-- 60_exceptions.md R132 with the bounds of D15 (log 6): what a directive does to the state, on any state whose
memory is canonical. -/
def Obligations.DirectiveChangesOneCellOneRegisterOrTheFlag : Prop :=
  ∀ s : State, s.mem.wf = true →
    (∀ addr val : Nat, addr ≤ 32767 → val ≤ 65535 →
      ∃ m : Memory, applyDirective (.wmem addr val) s = { s with mem := m } ∧ m.wf = true ∧
        m.read addr = BitVec.ofNat 16 val ∧ ∀ x, x ≠ addr → m.read x = s.mem.read x) ∧
    (∀ addr val : Nat, 32768 ≤ addr ∨ 65536 ≤ val → applyDirective (.wmem addr val) s = s) ∧
    (∀ (reg : RegNum) (val : Nat), val ≤ 65535 →
      applyDirective (.wreg reg.val val) s = { s with regs := s.regs.set reg (BitVec.ofNat 16 val) }) ∧
    (∀ reg val : Nat, 8 ≤ reg ∨ 65536 ≤ val → applyDirective (.wreg reg val) s = s) ∧
    applyDirective .debug s = { s with traceOn := !s.traceOn } ∧
    applyDirective .malformed s = s

/-- 46_io.md R115, R116, 60_exceptions.md R132, R134: during the wait of an `in`, whether it has just begun or
the host has moved in it before, a directive line that is next is a host move. The move applies it and leaves
the machine waiting at the same `pc`, the destination held (D20, log 8); it is no step of the machine, and with
no ordinary line left there is no step either. A host that moves before the step and a step that consumes the
directive itself come to the same, so the moment at which the step applies it (log 6) decides nothing. -/
def Obligations.DirectiveLineIsConsumedDuringTheWait : Prop :=
  ∀ (s : State) (r : RegNum) (d : Directive) (ls : List InputLine),
    s.run = .running → s.input = [] → s.lines = .directive d :: ls →
    (s.waiting = some r ∨ (s.waiting = none ∧ s.fetch = .instr (.input (.register r)))) →
    (∃ log, s.hostMove = some { applyDirective d s with lines := ls, waiting := some r, traceLog := log }) ∧
    (∀ t, s.hostMove = some t → step t = step s) ∧
    ((∀ cs, .text cs ∉ ls) → step s = .fault .waitingForInput)

/-- 60_exceptions.md R132: the host moves only while a running machine waits in an `in` with an empty queue, each
move consumes the directive line that is next, and no move changes `pc`, the stack, the run state or the queue,
or anything but what its directive names. That the machine then waits with the destination held, the one held
before or that of the `in` at `pc`, is 46_io.md R111 by the spec's decision D20 (log 8). The move keeps the
model's invariant. That a move is a transition beside `step` is log 6. -/
def Obligations.HostMoveChangesOnlyWhatItsDirectiveNames : Prop :=
  ∀ s t : State, s.hostMove = some t →
    s.run = .running ∧ s.input = [] ∧
    (∃ r, t.waiting = some r ∧
      (s.waiting = some r ∨ (s.waiting = none ∧ s.fetch = .instr (.input (.register r))))) ∧
    (∃ d, s.lines = .directive d :: t.lines ∧
      (∀ x, t.mem.read x ≠ s.mem.read x → ∃ v, d = .wmem x v) ∧
      (∀ q : RegNum, t.regs[q] ≠ s.regs[q] → ∃ v, d = .wreg q.val v) ∧
      (t.traceOn ≠ s.traceOn → d = .debug)) ∧
    t.pc = s.pc ∧ t.stack = s.stack ∧ t.run = s.run ∧ t.input = s.input ∧ t.output = s.output ∧
    t.lineTerm = s.lineTerm ∧ (s.inv = true → t.inv = true)

/-- 46_io.md R111, R114 to R116: a waiting `in` whose destination is held completes into that register, and into
no other, even if the cells at `pc` have changed (D20, log 8). But for the directives ahead of the ordinary line,
which act within the step (log 6), and the trace log, that is all that changes. With no ordinary line left it has
no step (`waitingForInput` is the model's name for that, log 8). -/
def Obligations.WaitingInCompletesIntoItsRegister : Prop :=
  ∀ (s : State) (r : RegNum), s.run = .running → s.waiting = some r → s.input = [] →
    (∀ (ds : List Directive) (cs : List Word) (ls : List InputLine) (c : Word) (q : List Word),
      s.lines = ds.map .directive ++ .text cs :: ls → cs ++ [s.lineTerm] = c :: q →
      ∃ log, step s = .next { applyDirectives ds s with
        regs := (applyDirectives ds s).regs.set r c, input := q, lines := ls, waiting := none, pc := s.pc + 2,
        traceLog := log }) ∧
    ((∀ cs, .text cs ∉ s.lines) → step s = .fault .waitingForInput)

/-- 46_io.md R116: a machine stuck in `in` is not at an end. An ordinary line offered completes the `in`; a
directive line offered leaves it without a step, and the host then has a move (60_exceptions.md R132). That the
host offers a line between two steps and moves beside `step` is log 6, and the name `waitingForInput` of the
stuck state is the model's (D14, log 8). -/
def Obligations.OfferedLineLetsTheWaitGoOn : Prop :=
  ∀ s : State, step s = .fault .waitingForInput →
    (∀ cs, ∃ t, step (s.offerLine (.text cs)) = .next t ∧ t.waiting = none ∧ t.pc = s.pc + 2 ∧
      t.run = .running) ∧
    ∀ d, step (s.offerLine (.directive d)) = .fault .waitingForInput ∧
      ∃ t, (s.offerLine (.directive d)).hostMove = some t

/-! ## The ends of a run -/

/-- 60_exceptions.md R125: an abort is precise. But for the run state and the trace log nothing changes, and
the record holds the `pc` of the failing instruction. The spec's decision D10 (log 3). -/
def Obligations.AbortIsPrecise : Prop :=
  ∀ (s t : State) (k : AbortKind) (p w : Word), step s = .next t → t.run = .aborted k p w →
    p = s.pc ∧ ∃ log, t = { s with run := .aborted k s.pc w, traceLog := log }

/-- 60_exceptions.md R121: a graceful halt leaves everything but the run state (and the trace log). The
unchanged `pc` is D11 (log 3). -/
def Obligations.HaltLeavesTheStateAsItIs : Prop :=
  ∀ (s t : State) (r : HaltReason), step s = .next t → t.run = .halted r →
    ∃ log, t = { s with run := .halted r, traceLog := log }

/-- 60_exceptions.md R120, the execute and resolve stages: an instruction aborts only for a listed cause,
and records the listed word. -/
def Obligations.InstructionsAbortOnlyForListedCauses : Prop :=
  ∀ (i : Instr) (s t : State) (k : AbortKind) (p w : Word), s.run = .running → i.wf = true →
    exec i s = .next t → t.run = .aborted k p w →
    (k = .invalidOperand ∧ (∃ o, (.value, o) ∈ operandRoles i ∧ o.encode = w) ∧ 32776 ≤ w.toNat) ∨
    (k = .invalidAddress ∧ (∃ o, (.dest, o) ∈ operandRoles i ∧ o.encode = w) ∧
      (w.toNat ≤ 32767 ∨ 32776 ≤ w.toNat)) ∨
    (k = .invalidAddress ∧ 32768 ≤ w.toNat ∧
      ((∃ a b, i = .rmem a b ∧ s.value b = .ok w) ∨ ∃ a b, i = .wmem a b ∧ s.value a = .ok w)) ∨
    (k = .stackUnderflow ∧ w = 3 ∧ s.stack = [] ∧ ∃ a, i = .pop a) ∨
    (k = .modByZero ∧ ∃ a b c, i = .mod a b c ∧ s.value c = .ok 0 ∧ w = c.encode)

/-! ## Frames and whole-machine rules -/

/-- 20_memory.md R32: a cell changes only by a `wmem` to it, or by a host directive `wmem` to it that an `in`
consumes ahead of the ordinary line it completes with (that the directive acts within the `in`'s step is log
6). -/
def Obligations.MemoryChangesOnlyByWmemOrDirective : Prop :=
  ∀ (i : Instr) (s t : State) (x : Nat), exec i s = .next t → t.mem.read x ≠ s.mem.read x →
    (∃ a b ea, i = .wmem a b ∧ s.value a = .ok ea ∧ ea.toNat = x ∧ x ≤ 32767) ∨
    ∃ (r : RegNum) (ds : List Directive) (cs : List Word) (ls : List InputLine) (v : Nat),
      i = .input (.register r) ∧ s.input = [] ∧ s.lines = ds.map .directive ++ .text cs :: ls ∧ .wmem x v ∈ ds

/-- 10_state.md R13: a register changes only as the destination of one of the twelve instructions that have
one, or by a host directive `wreg` to it that an `in` consumes ahead of the ordinary line it completes with
(that the directive acts within the `in`'s step is log 6). -/
def Obligations.RegistersChangeOnlyAsDestination : Prop :=
  ∀ (i : Instr) (s t : State) (q : RegNum), exec i s = .next t → t.regs[q] ≠ s.regs[q] →
    (∃ b c, i = .set (.register q) b ∨ i = .pop (.register q) ∨ i = .eq (.register q) b c ∨
      i = .gt (.register q) b c ∨ i = .add (.register q) b c ∨ i = .mult (.register q) b c ∨
      i = .mod (.register q) b c ∨ i = .and (.register q) b c ∨ i = .or (.register q) b c ∨
      i = .not (.register q) b ∨ i = .rmem (.register q) b ∨ i = .input (.register q)) ∨
    ∃ (r : RegNum) (ds : List Directive) (cs : List Word) (ls : List InputLine) (v : Nat),
      i = .input (.register r) ∧ s.input = [] ∧ s.lines = ds.map .directive ++ .text cs :: ls ∧ .wreg q.val v ∈ ds

/-- 10_state.md R16: only `push`, `pop`, `call` and `ret` touch the stack. -/
def Obligations.StackChangesOnlyByItsFourInstructions : Prop :=
  ∀ (i : Instr) (s t : State), exec i s = .next t → t.stack ≠ s.stack →
    (∃ a, i = .push a ∨ i = .pop a ∨ i = .call a) ∨ i = .ret

/-- 46_io.md R112, 10_state.md R19: only `out` emits; only `in` touches the input side, the wait and, through
a directive, the trace flag; no instruction writes the trace log or the terminator. -/
def Obligations.PortsChangeOnlyByOutAndIn : Prop :=
  ∀ (i : Instr) (s t : State), exec i s = .next t →
    (t.output ≠ s.output → ∃ a, i = .out a) ∧
    ((t.input ≠ s.input ∨ t.lines ≠ s.lines ∨ t.waiting ≠ s.waiting ∨ t.traceOn ≠ s.traceOn) →
      ∃ r, i = .input (.register r)) ∧
    t.traceLog = s.traceLog ∧ t.lineTerm = s.lineTerm

/-- 30_encoding.md R62: an instruction that completes and is not a control transfer advances `pc` by its
length. The control transfers are `jmp`, `jt`, `jf`, `call`, `ret`; an `in` that goes on waiting has no next
state. -/
def Obligations.CompletedInstructionAdvancesByItsLength : Prop :=
  ∀ (i : Instr) (s t : State), s.run = .running → exec i s = .next t → t.run = .running →
    (∀ a b, i ≠ .jmp a ∧ i ≠ .jt a b ∧ i ≠ .jf a b ∧ i ≠ .call a ∧ i ≠ .ret) →
    t.pc = s.pc + BitVec.ofNat 16 i.length

/-- 20_memory.md R42: the word a `wmem` stores is what every later fetch of that cell sees, the very next
one included, as an opcode and as an operand. -/
def Obligations.StoredWordIsFetchedNext : Prop :=
  ∀ (s t : State) (a b ea v : Word), s.mem.wf = true →
    Spec.val s a = some ea → Spec.val s b = some v → ea.toNat ≤ 32767 →
    exec (.wmem (.ofWord a) (.ofWord b)) s = .next t →
    (∀ p k, k < 4 → p + k = ea.toNat → (t.mem.window p 4)[k]? = some v) ∧
    (t.run = .running → t.waiting = none → t.pc = ea → 22 ≤ v.toNat →
      step t = Spec.aborts t .invalidOpcode v)

/-- 43_control_transfer.md R88: "`call` then matching `ret` resumes execution exactly at the instruction
following the `call`", whatever has happened to everything but the stack in between. -/
def Obligations.RetResumesAfterItsCall : Prop :=
  ∀ (s : State) (a v : Word), Spec.val s a = some v →
    ∃ t, exec (.call (.ofWord a)) s = .next t ∧ t.pc = v ∧
      ∀ u : State, u.stack = t.stack → exec .ret u = .next { u with stack := s.stack, pc := s.pc + 2 }

/-- 10_state.md R16: "pushing `[a,b,c]` then popping three times yields `c,b,a` in that order", for any three
operand words and any three destinations, and the stack is then as it was. -/
def Obligations.PopsReverseThePushes : Prop :=
  ∀ (s : State) (a b c va vb vc : Word) (d e f : RegNum),
    Spec.val s a = some va → Spec.val s b = some vb → Spec.val s c = some vc →
    ∃ s₁ s₂ s₃ t₁ t₂ t₃ : State,
      exec (.push (.ofWord a)) s = .next s₁ ∧ exec (.push (.ofWord b)) s₁ = .next s₂ ∧
      exec (.push (.ofWord c)) s₂ = .next s₃ ∧
      exec (.pop (.register d)) s₃ = .next t₁ ∧ t₁.regs[d] = vc ∧
      exec (.pop (.register e)) t₁ = .next t₂ ∧ t₂.regs[e] = vb ∧
      exec (.pop (.register f)) t₂ = .next t₃ ∧ t₃.regs[f] = va ∧ t₃.stack = s.stack

/-- 10_state.md R11: in a machine whose registers, stack, pending codes and lines are in 0..32767, every
instruction keeps them there and stores nothing above, but for an `rmem` of a cell that holds more and the
return address of a `call` at the very end of memory. -/
def Obligations.WordRangeIsKept : Prop :=
  ∀ (i : Instr) (s t : State), s.mem.wf = true → s.inWordRange = true → exec i s = .next t →
    (∀ a b ea, i = .rmem a b → s.value b = .ok ea → (s.mem.read ea.toNat).toNat ≤ 32767) →
    (∀ a, i = .call a → s.pc.toNat + 2 ≤ 32767) →
    t.inWordRange = true ∧ ∀ x, t.mem.read x ≠ s.mem.read x → (t.mem.read x).toNat ≤ 32767

/-! ## Memory, reset and the image -/

/-- Canonical memories that read alike at every address are equal data: the canonical form hides nothing
(the model's representation, log 1). -/
def Obligations.MemoriesThatReadAlikeAreEqual : Prop :=
  ∀ m n : Memory, m.wf = true → n.wf = true → (∀ x, m.read x = n.read x) → m = n

/-- 10_state.md R22, 70_reset_and_hazards.md R140: what reset with an image leaves, field by field. Zero
above the image is D2 (log 2); empty stack and queue and clear flag are D16 (log 11). -/
def Obligations.ResetLeavesTheImageAndZeros : Prop :=
  ∀ image : List Word, image.length ≤ 32768 →
    (∀ k (h : k < image.length), (State.resetWith image).mem.read k = image[k]) ∧
    (∀ k, image.length ≤ k → (State.resetWith image).mem.read k = 0) ∧
    (∀ r : RegNum, (State.resetWith image).regs[r] = 0) ∧
    (State.resetWith image).pc = 0 ∧ (State.resetWith image).stack = [] ∧
    (State.resetWith image).run = .running ∧ (State.resetWith image).input = [] ∧
    (State.resetWith image).traceOn = false ∧ (State.resetWith image).inv = true ∧
    State.resetWith [] = State.reset

/-- 20_memory.md R34, 70_reset_and_hazards.md R143: the byte stream is little-endian 16-bit words; an odd
number of bytes is refused, and so are more than 32768 words (D17, log 18). -/
def Obligations.ImageBytesAreLittleEndian : Prop :=
  (∀ bytes : List (BitVec 8), bytes.length % 2 = 1 → boot bytes = .error .trailingPartialWord) ∧
  (∀ bytes : List (BitVec 8), bytes.length % 2 = 0 → 65536 < bytes.length → boot bytes = .error .tooLong) ∧
  ∀ bytes : List (BitVec 8), bytes.length % 2 = 0 → bytes.length ≤ 65536 →
    ∃ image : List Word, boot bytes = .ok (State.resetWith image) ∧ 2 * image.length = bytes.length ∧
      ∀ k (h : 2 * k + 1 < bytes.length) (hk : k < image.length),
        image[k].toNat = bytes[2 * k].toNat + 256 * bytes[2 * k + 1].toNat

/-- An instruction placed by `State.withFetchWord` is what the next step runs (the model's own loading aid,
log 10). -/
def Obligations.PlacedInstructionRunsNext : Prop :=
  ∀ (s : State) (nbits w : Nat) (i : Instr), s.mem.wf = true → decodeTableWord nbits w = some i →
    step (s.withFetchWord nbits w) =
      traceInstr i (s.withFetchWord nbits w) (exec i (s.withFetchWord nbits w))

/-! ## Invariant and observation -/

/-- Memory stays canonical and a wait stays coherent: a waiting machine is running, its Input Queue is empty
and the operand cell of its `in` exists (10_state.md R21, 20_memory.md R37, 60_exceptions.md R134). -/
def Obligations.StepKeepsTheInvariant : Prop :=
  ∀ s t : State, s.inv = true → step s = .next t → t.inv = true

/-- The invariant holds after reset. -/
def Obligations.ResetMeetsTheInvariant : Prop := State.reset.inv = true

/-- 60_exceptions.md R133: the trace is "observation only, must not alter subsequent execution". A step, and a
host move, of a state and of the same state with no trace answer alike but for the trace. -/
def Obligations.TraceIsObservationOnly : Prop :=
  ∀ s : State, Result.untraced (step s) = Result.untraced (step s.untraced) ∧
    s.hostMove.map State.untraced = s.untraced.hostMove.map State.untraced

/-- 60_exceptions.md R133: with the flag set, a step of a decoded instruction emits its record before, and its
record after if the flag is then still set, with the registers, stack depth and top of those moments. The form of
a record is the model's, and so is that a step that aborts or halts emits both (log 9). -/
def Obligations.TracedStepEmitsBeforeAndAfter : Prop :=
  ∀ (s u : State) (i : Instr), s.run = .running → s.waiting = none → s.traceOn = true →
    s.fetch = .instr i → exec i s = .next u →
    step s = .next { u with traceLog := s.traceLog ++
      ⟨.before, i, traceOperands i s, s.regs, s.stack.length, s.stack.head?⟩ ::
        (if u.traceOn then [⟨.after, i, traceOperands i s, u.regs, u.stack.length, u.stack.head?⟩] else []) }
end

