-- ==== Sys2Proof/Laws/State.lean ====
section
/-! SUPPORT. One lemma per field per update of State, so that no proof unfolds a record update, and the
laws of the register file. -/

namespace Sys2Proof.Machine

variable (s : State)

@[simp] theorem State.setReg_regs (r : RegNum) (v : Word) : (s.setReg r v).regs = s.regs.set r v := rfl
@[simp] theorem State.setReg_pc (r : RegNum) (v : Word) : (s.setReg r v).pc = s.pc := rfl
@[simp] theorem State.setReg_mem (r : RegNum) (v : Word) : (s.setReg r v).mem = s.mem := rfl
@[simp] theorem State.setReg_stack (r : RegNum) (v : Word) : (s.setReg r v).stack = s.stack := rfl
@[simp] theorem State.setReg_run (r : RegNum) (v : Word) : (s.setReg r v).run = s.run := rfl
@[simp] theorem State.setReg_waiting (r : RegNum) (v : Word) : (s.setReg r v).waiting = s.waiting := rfl
@[simp] theorem State.setReg_input (r : RegNum) (v : Word) : (s.setReg r v).input = s.input := rfl
@[simp] theorem State.setReg_lines (r : RegNum) (v : Word) : (s.setReg r v).lines = s.lines := rfl
@[simp] theorem State.setReg_lineTerm (r : RegNum) (v : Word) : (s.setReg r v).lineTerm = s.lineTerm := rfl
@[simp] theorem State.setReg_output (r : RegNum) (v : Word) : (s.setReg r v).output = s.output := rfl
@[simp] theorem State.setReg_traceOn (r : RegNum) (v : Word) : (s.setReg r v).traceOn = s.traceOn := rfl
@[simp] theorem State.setReg_traceLog (r : RegNum) (v : Word) : (s.setReg r v).traceLog = s.traceLog := rfl

@[simp] theorem State.setPc_regs (v : Word) : (s.setPc v).regs = s.regs := rfl
@[simp] theorem State.setPc_pc (v : Word) : (s.setPc v).pc = v := rfl
@[simp] theorem State.setPc_mem (v : Word) : (s.setPc v).mem = s.mem := rfl
@[simp] theorem State.setPc_stack (v : Word) : (s.setPc v).stack = s.stack := rfl
@[simp] theorem State.setPc_run (v : Word) : (s.setPc v).run = s.run := rfl
@[simp] theorem State.setPc_waiting (v : Word) : (s.setPc v).waiting = s.waiting := rfl
@[simp] theorem State.setPc_input (v : Word) : (s.setPc v).input = s.input := rfl
@[simp] theorem State.setPc_lines (v : Word) : (s.setPc v).lines = s.lines := rfl
@[simp] theorem State.setPc_lineTerm (v : Word) : (s.setPc v).lineTerm = s.lineTerm := rfl
@[simp] theorem State.setPc_output (v : Word) : (s.setPc v).output = s.output := rfl
@[simp] theorem State.setPc_traceOn (v : Word) : (s.setPc v).traceOn = s.traceOn := rfl
@[simp] theorem State.setPc_traceLog (v : Word) : (s.setPc v).traceLog = s.traceLog := rfl

@[simp] theorem State.advance_regs (n : Nat) : (s.advance n).regs = s.regs := rfl
@[simp] theorem State.advance_pc (n : Nat) : (s.advance n).pc = s.pc + BitVec.ofNat 16 n := rfl
@[simp] theorem State.advance_mem (n : Nat) : (s.advance n).mem = s.mem := rfl
@[simp] theorem State.advance_stack (n : Nat) : (s.advance n).stack = s.stack := rfl
@[simp] theorem State.advance_run (n : Nat) : (s.advance n).run = s.run := rfl
@[simp] theorem State.advance_waiting (n : Nat) : (s.advance n).waiting = s.waiting := rfl
@[simp] theorem State.advance_input (n : Nat) : (s.advance n).input = s.input := rfl
@[simp] theorem State.advance_lines (n : Nat) : (s.advance n).lines = s.lines := rfl
@[simp] theorem State.advance_lineTerm (n : Nat) : (s.advance n).lineTerm = s.lineTerm := rfl
@[simp] theorem State.advance_output (n : Nat) : (s.advance n).output = s.output := rfl
@[simp] theorem State.advance_traceOn (n : Nat) : (s.advance n).traceOn = s.traceOn := rfl
@[simp] theorem State.advance_traceLog (n : Nat) : (s.advance n).traceLog = s.traceLog := rfl

@[simp] theorem State.pushWord_regs (v : Word) : (s.pushWord v).regs = s.regs := rfl
@[simp] theorem State.pushWord_pc (v : Word) : (s.pushWord v).pc = s.pc := rfl
@[simp] theorem State.pushWord_mem (v : Word) : (s.pushWord v).mem = s.mem := rfl
@[simp] theorem State.pushWord_stack (v : Word) : (s.pushWord v).stack = v :: s.stack := rfl
@[simp] theorem State.pushWord_run (v : Word) : (s.pushWord v).run = s.run := rfl
@[simp] theorem State.pushWord_waiting (v : Word) : (s.pushWord v).waiting = s.waiting := rfl
@[simp] theorem State.pushWord_input (v : Word) : (s.pushWord v).input = s.input := rfl
@[simp] theorem State.pushWord_lines (v : Word) : (s.pushWord v).lines = s.lines := rfl
@[simp] theorem State.pushWord_lineTerm (v : Word) : (s.pushWord v).lineTerm = s.lineTerm := rfl
@[simp] theorem State.pushWord_output (v : Word) : (s.pushWord v).output = s.output := rfl
@[simp] theorem State.pushWord_traceOn (v : Word) : (s.pushWord v).traceOn = s.traceOn := rfl
@[simp] theorem State.pushWord_traceLog (v : Word) : (s.pushWord v).traceLog = s.traceLog := rfl

@[simp] theorem State.setStack_regs (st : List Word) : (s.setStack st).regs = s.regs := rfl
@[simp] theorem State.setStack_pc (st : List Word) : (s.setStack st).pc = s.pc := rfl
@[simp] theorem State.setStack_mem (st : List Word) : (s.setStack st).mem = s.mem := rfl
@[simp] theorem State.setStack_stack (st : List Word) : (s.setStack st).stack = st := rfl
@[simp] theorem State.setStack_run (st : List Word) : (s.setStack st).run = s.run := rfl
@[simp] theorem State.setStack_waiting (st : List Word) : (s.setStack st).waiting = s.waiting := rfl
@[simp] theorem State.setStack_input (st : List Word) : (s.setStack st).input = s.input := rfl
@[simp] theorem State.setStack_lines (st : List Word) : (s.setStack st).lines = s.lines := rfl
@[simp] theorem State.setStack_lineTerm (st : List Word) : (s.setStack st).lineTerm = s.lineTerm := rfl
@[simp] theorem State.setStack_output (st : List Word) : (s.setStack st).output = s.output := rfl
@[simp] theorem State.setStack_traceOn (st : List Word) : (s.setStack st).traceOn = s.traceOn := rfl
@[simp] theorem State.setStack_traceLog (st : List Word) : (s.setStack st).traceLog = s.traceLog := rfl

@[simp] theorem State.setCell_regs (a : Nat) (v : Word) : (s.setCell a v).regs = s.regs := rfl
@[simp] theorem State.setCell_pc (a : Nat) (v : Word) : (s.setCell a v).pc = s.pc := rfl
@[simp] theorem State.setCell_mem (a : Nat) (v : Word) : (s.setCell a v).mem = s.mem.write a v := rfl
@[simp] theorem State.setCell_stack (a : Nat) (v : Word) : (s.setCell a v).stack = s.stack := rfl
@[simp] theorem State.setCell_run (a : Nat) (v : Word) : (s.setCell a v).run = s.run := rfl
@[simp] theorem State.setCell_waiting (a : Nat) (v : Word) : (s.setCell a v).waiting = s.waiting := rfl
@[simp] theorem State.setCell_input (a : Nat) (v : Word) : (s.setCell a v).input = s.input := rfl
@[simp] theorem State.setCell_lines (a : Nat) (v : Word) : (s.setCell a v).lines = s.lines := rfl
@[simp] theorem State.setCell_lineTerm (a : Nat) (v : Word) : (s.setCell a v).lineTerm = s.lineTerm := rfl
@[simp] theorem State.setCell_output (a : Nat) (v : Word) : (s.setCell a v).output = s.output := rfl
@[simp] theorem State.setCell_traceOn (a : Nat) (v : Word) : (s.setCell a v).traceOn = s.traceOn := rfl
@[simp] theorem State.setCell_traceLog (a : Nat) (v : Word) : (s.setCell a v).traceLog = s.traceLog := rfl

@[simp] theorem State.emit_regs (c : CharCode) : (s.emit c).regs = s.regs := rfl
@[simp] theorem State.emit_pc (c : CharCode) : (s.emit c).pc = s.pc := rfl
@[simp] theorem State.emit_mem (c : CharCode) : (s.emit c).mem = s.mem := rfl
@[simp] theorem State.emit_stack (c : CharCode) : (s.emit c).stack = s.stack := rfl
@[simp] theorem State.emit_run (c : CharCode) : (s.emit c).run = s.run := rfl
@[simp] theorem State.emit_waiting (c : CharCode) : (s.emit c).waiting = s.waiting := rfl
@[simp] theorem State.emit_input (c : CharCode) : (s.emit c).input = s.input := rfl
@[simp] theorem State.emit_lines (c : CharCode) : (s.emit c).lines = s.lines := rfl
@[simp] theorem State.emit_lineTerm (c : CharCode) : (s.emit c).lineTerm = s.lineTerm := rfl
@[simp] theorem State.emit_output (c : CharCode) : (s.emit c).output = s.output ++ [c] := rfl
@[simp] theorem State.emit_traceOn (c : CharCode) : (s.emit c).traceOn = s.traceOn := rfl
@[simp] theorem State.emit_traceLog (c : CharCode) : (s.emit c).traceLog = s.traceLog := rfl

@[simp] theorem State.raise_regs (c : Cause) : (s.raise c).regs = s.regs := rfl
@[simp] theorem State.raise_pc (c : Cause) : (s.raise c).pc = s.pc := rfl
@[simp] theorem State.raise_mem (c : Cause) : (s.raise c).mem = s.mem := rfl
@[simp] theorem State.raise_stack (c : Cause) : (s.raise c).stack = s.stack := rfl
@[simp] theorem State.raise_run (c : Cause) : (s.raise c).run = .aborted c.kind s.pc c.word := rfl
@[simp] theorem State.raise_waiting (c : Cause) : (s.raise c).waiting = s.waiting := rfl
@[simp] theorem State.raise_input (c : Cause) : (s.raise c).input = s.input := rfl
@[simp] theorem State.raise_lines (c : Cause) : (s.raise c).lines = s.lines := rfl
@[simp] theorem State.raise_lineTerm (c : Cause) : (s.raise c).lineTerm = s.lineTerm := rfl
@[simp] theorem State.raise_output (c : Cause) : (s.raise c).output = s.output := rfl
@[simp] theorem State.raise_traceOn (c : Cause) : (s.raise c).traceOn = s.traceOn := rfl
@[simp] theorem State.raise_traceLog (c : Cause) : (s.raise c).traceLog = s.traceLog := rfl

@[simp] theorem State.halt_regs (h : HaltReason) : (s.halt h).regs = s.regs := rfl
@[simp] theorem State.halt_pc (h : HaltReason) : (s.halt h).pc = s.pc := rfl
@[simp] theorem State.halt_mem (h : HaltReason) : (s.halt h).mem = s.mem := rfl
@[simp] theorem State.halt_stack (h : HaltReason) : (s.halt h).stack = s.stack := rfl
@[simp] theorem State.halt_run (h : HaltReason) : (s.halt h).run = .halted h := rfl
@[simp] theorem State.halt_waiting (h : HaltReason) : (s.halt h).waiting = s.waiting := rfl
@[simp] theorem State.halt_input (h : HaltReason) : (s.halt h).input = s.input := rfl
@[simp] theorem State.halt_lines (h : HaltReason) : (s.halt h).lines = s.lines := rfl
@[simp] theorem State.halt_lineTerm (h : HaltReason) : (s.halt h).lineTerm = s.lineTerm := rfl
@[simp] theorem State.halt_output (h : HaltReason) : (s.halt h).output = s.output := rfl
@[simp] theorem State.halt_traceOn (h : HaltReason) : (s.halt h).traceOn = s.traceOn := rfl
@[simp] theorem State.halt_traceLog (h : HaltReason) : (s.halt h).traceLog = s.traceLog := rfl

@[simp] theorem State.deliver_regs (r : RegNum) (c : Word) (q : List Word) : (s.deliver r c q).regs = s.regs.set r c := rfl
@[simp] theorem State.deliver_pc (r : RegNum) (c : Word) (q : List Word) : (s.deliver r c q).pc = s.pc + 2 := rfl
@[simp] theorem State.deliver_mem (r : RegNum) (c : Word) (q : List Word) : (s.deliver r c q).mem = s.mem := rfl
@[simp] theorem State.deliver_stack (r : RegNum) (c : Word) (q : List Word) : (s.deliver r c q).stack = s.stack := rfl
@[simp] theorem State.deliver_run (r : RegNum) (c : Word) (q : List Word) : (s.deliver r c q).run = s.run := rfl
@[simp] theorem State.deliver_waiting (r : RegNum) (c : Word) (q : List Word) : (s.deliver r c q).waiting = none := rfl
@[simp] theorem State.deliver_input (r : RegNum) (c : Word) (q : List Word) : (s.deliver r c q).input = q := rfl
@[simp] theorem State.deliver_lines (r : RegNum) (c : Word) (q : List Word) : (s.deliver r c q).lines = s.lines := rfl
@[simp] theorem State.deliver_lineTerm (r : RegNum) (c : Word) (q : List Word) : (s.deliver r c q).lineTerm = s.lineTerm := rfl
@[simp] theorem State.deliver_output (r : RegNum) (c : Word) (q : List Word) : (s.deliver r c q).output = s.output := rfl
@[simp] theorem State.deliver_traceOn (r : RegNum) (c : Word) (q : List Word) : (s.deliver r c q).traceOn = s.traceOn := rfl
@[simp] theorem State.deliver_traceLog (r : RegNum) (c : Word) (q : List Word) : (s.deliver r c q).traceLog = s.traceLog := rfl

@[simp] theorem State.enterWait_regs (r : RegNum) : (s.enterWait r).regs = s.regs := rfl
@[simp] theorem State.enterWait_pc (r : RegNum) : (s.enterWait r).pc = s.pc := rfl
@[simp] theorem State.enterWait_mem (r : RegNum) : (s.enterWait r).mem = s.mem := rfl
@[simp] theorem State.enterWait_stack (r : RegNum) : (s.enterWait r).stack = s.stack := rfl
@[simp] theorem State.enterWait_run (r : RegNum) : (s.enterWait r).run = s.run := rfl
@[simp] theorem State.enterWait_waiting (r : RegNum) : (s.enterWait r).waiting = some r := rfl
@[simp] theorem State.enterWait_input (r : RegNum) : (s.enterWait r).input = s.input := rfl
@[simp] theorem State.enterWait_lines (r : RegNum) : (s.enterWait r).lines = s.lines := rfl
@[simp] theorem State.enterWait_lineTerm (r : RegNum) : (s.enterWait r).lineTerm = s.lineTerm := rfl
@[simp] theorem State.enterWait_output (r : RegNum) : (s.enterWait r).output = s.output := rfl
@[simp] theorem State.enterWait_traceOn (r : RegNum) : (s.enterWait r).traceOn = s.traceOn := rfl
@[simp] theorem State.enterWait_traceLog (r : RegNum) : (s.enterWait r).traceLog = s.traceLog ++
    (if s.waiting.isNone then recordBefore (.input (.register r)) s else []) := rfl

@[simp] theorem State.offerLine_regs (l : InputLine) : (s.offerLine l).regs = s.regs := rfl
@[simp] theorem State.offerLine_pc (l : InputLine) : (s.offerLine l).pc = s.pc := rfl
@[simp] theorem State.offerLine_mem (l : InputLine) : (s.offerLine l).mem = s.mem := rfl
@[simp] theorem State.offerLine_stack (l : InputLine) : (s.offerLine l).stack = s.stack := rfl
@[simp] theorem State.offerLine_run (l : InputLine) : (s.offerLine l).run = s.run := rfl
@[simp] theorem State.offerLine_waiting (l : InputLine) : (s.offerLine l).waiting = s.waiting := rfl
@[simp] theorem State.offerLine_input (l : InputLine) : (s.offerLine l).input = s.input := rfl
@[simp] theorem State.offerLine_lines (l : InputLine) : (s.offerLine l).lines = s.lines ++ [l] := rfl
@[simp] theorem State.offerLine_lineTerm (l : InputLine) : (s.offerLine l).lineTerm = s.lineTerm := rfl
@[simp] theorem State.offerLine_output (l : InputLine) : (s.offerLine l).output = s.output := rfl
@[simp] theorem State.offerLine_traceOn (l : InputLine) : (s.offerLine l).traceOn = s.traceOn := rfl
@[simp] theorem State.offerLine_traceLog (l : InputLine) : (s.offerLine l).traceLog = s.traceLog := rfl

/-! ## Reading a register after a write -/

theorem State.getReg_setReg (r q : RegNum) (v : Word) :
    (s.setReg r v).getReg q = if q = r then v else s.getReg q := by
  simp only [State.getReg, State.setReg, Fin.getElem_fin, Vector.getElem_set, Fin.ext_iff, eq_comm]

@[simp] theorem State.getReg_setReg_same (r : RegNum) (v : Word) : (s.setReg r v).getReg r = v := by
  simp [State.getReg_setReg]

theorem State.getReg_setReg_ne {r q : RegNum} (v : Word) (h : q ≠ r) :
    (s.setReg r v).getReg q = s.getReg q := by
  simp [State.getReg_setReg, h]

end Sys2Proof.Machine
end

