-- ==== Sys2Proof/Laws/Memory.lean ====
section
/-! SUPPORT. The laws of program memory: read after write, and that every operation keeps the canonical form. -/

namespace Sys2Proof.Machine.Memory

@[simp] theorem read_nil (a : Nat) : Memory.read [] a = unlisted := rfl

theorem read_cons (k a : Nat) (v : Word) (m : Memory) :
    Memory.read ((k, v) :: m) a = if k = a then v else Memory.read m a := rfl

theorem wfFrom_cons {lo k : Nat} {v : Word} {m : Memory} :
    wfFrom lo ((k, v) :: m) = true ↔
      lo ≤ k ∧ k < Config.memWords ∧ v ≠ unlisted ∧ wfFrom (k + 1) m = true := by
  simp [wfFrom, and_assoc]

/-- A canonical form from a higher address on is one from a lower address on. -/
theorem wfFrom_mono {lo lo' : Nat} {m : Memory} (h : wfFrom lo m = true) (hle : lo' ≤ lo) :
    wfFrom lo' m = true := by
  cases m with
  | nil => rfl
  | cons p m =>
    obtain ⟨h1, h2⟩ := wfFrom_cons.1 h
    exact wfFrom_cons.2 ⟨hle.trans h1, h2⟩

/-- Below its first address a canonical memory lists nothing. -/
theorem read_of_lt {lo a : Nat} {m : Memory} (h : wfFrom lo m = true) (hlt : a < lo) :
    Memory.read m a = unlisted := by
  induction m generalizing lo with
  | nil => rfl
  | cons p m ih =>
    obtain ⟨h1, -, -, h4⟩ := wfFrom_cons.1 h
    have hne : p.1 ≠ a := by omega
    rw [read_cons, if_neg hne]
    exact ih h4 (by omega)

theorem read_write_same_from {lo a : Nat} {m : Memory} (v : Word) (h : wfFrom lo m = true) :
    Memory.read (Memory.write m a v) a = v := by
  induction m generalizing lo with
  | nil => by_cases hv : v = unlisted <;> simp [Memory.write, hv, read_cons]
  | cons p m ih =>
    obtain ⟨k, w⟩ := p
    obtain ⟨h1, -, -, h4⟩ := wfFrom_cons.1 h
    simp only [Memory.write]
    rcases lt_trichotomy a k with hlt | heq | hgt
    · rw [if_pos hlt]
      by_cases hv : v = unlisted
      · rw [if_pos hv, read_cons, if_neg (by omega), hv]
        exact read_of_lt h4 (by omega)
      · rw [if_neg hv, read_cons, if_pos rfl]
    · subst heq
      rw [if_neg (by omega), if_pos rfl]
      by_cases hv : v = unlisted
      · rw [if_pos hv, hv]
        exact read_of_lt h4 (by omega)
      · rw [if_neg hv, read_cons, if_pos rfl]
    · rw [if_neg (by omega), if_neg (by omega), read_cons, if_neg (by omega)]
      exact ih h4

/-- A read after a write to the same cell gives the value written (20_memory.md R36). -/
theorem read_write_same {m : Memory} (a : Nat) (v : Word) (h : m.wf = true) :
    Memory.read (Memory.write m a v) a = v :=
  read_write_same_from v h

/-- A write leaves every other cell alone. -/
theorem read_write_ne {a b : Nat} (m : Memory) (v : Word) (h : b ≠ a) :
    Memory.read (Memory.write m a v) b = Memory.read m b := by
  induction m with
  | nil => by_cases hv : v = unlisted <;> simp [Memory.write, hv, read_cons, h.symm]
  | cons p m ih =>
    obtain ⟨k, w⟩ := p
    simp only [Memory.write]
    split
    · split
      · rfl
      · simp [read_cons, h.symm]
    · split
      · next heq => subst heq; split <;> simp [read_cons, h.symm]
      · simp [read_cons, ih]

theorem wfFrom_write {lo a : Nat} {m : Memory} (v : Word) (h : wfFrom lo m = true) (hlo : lo ≤ a)
    (ha : a < Config.memWords) : wfFrom lo (Memory.write m a v) = true := by
  induction m generalizing lo with
  | nil => by_cases hv : v = unlisted <;> simp_all [Memory.write, wfFrom]
  | cons p m ih =>
    obtain ⟨k, w⟩ := p
    obtain ⟨h1, h2, h3, h4⟩ := wfFrom_cons.1 h
    simp only [Memory.write]
    split
    · next hlt =>
      split
      · exact h
      · next hv => exact wfFrom_cons.2 ⟨hlo, ha, hv, wfFrom_cons.2 ⟨hlt, h2, h3, h4⟩⟩
    · split
      · next heq =>
        subst heq
        split
        · exact wfFrom_mono h4 (by omega)
        · next hv => exact wfFrom_cons.2 ⟨hlo, ha, hv, h4⟩
      · exact wfFrom_cons.2 ⟨h1, h2, h3, ih h4 (by omega)⟩

/-- A write of an existing cell keeps the canonical form. -/
theorem wf_write {a : Nat} {m : Memory} (v : Word) (h : m.wf = true) (ha : a < Config.memWords) :
    (Memory.write m a v).wf = true :=
  wfFrom_write v h (Nat.zero_le a) ha

/-- Writing consecutive cells keeps the canonical form. -/
theorem wf_writeAll {m : Memory} (a : Nat) (vs : List Word) (h : m.wf = true) :
    (Memory.writeAll m a vs).wf = true := by
  induction vs generalizing m a with
  | nil => exact h
  | cons v vs ih =>
    simp only [Memory.writeAll]
    apply ih
    split
    · next ha => exact wf_write v h ha
    · exact h

/-- Writing consecutive cells from `a` leaves the cells below `a` alone. -/
theorem read_writeAll_lt {b a : Nat} (m : Memory) (vs : List Word) (h : b < a) :
    Memory.read (Memory.writeAll m a vs) b = Memory.read m b := by
  induction vs generalizing m a with
  | nil => rfl
  | cons v vs ih =>
    simp only [Memory.writeAll]
    rw [ih _ (by omega)]
    split
    · exact read_write_ne m v (by omega)
    · rfl

/-- Cell `k` of the cells written from `a` upward reads as written. -/
theorem read_writeAll {m : Memory} {a k : Nat} {vs : List Word} (h : m.wf = true) (hk : k < vs.length)
    (ha : a + k < Config.memWords) : Memory.read (Memory.writeAll m a vs) (a + k) = vs[k] := by
  induction vs generalizing m a k with
  | nil => simp at hk
  | cons v vs ih =>
    simp only [Memory.writeAll]
    rw [if_pos (by omega)]
    cases k with
    | zero =>
      rw [read_writeAll_lt _ _ (by omega)]
      exact read_write_same a v h
    | succ k =>
      have := @ih (Memory.write m a v) (a + 1) k (wf_write v h (by omega)) (by simpa using hk) (by omega)
      rw [show a + (k + 1) = a + 1 + k by omega, this]
      rfl

theorem wfFrom_ofImage (a : Nat) (ws : List Word) (h : a + ws.length ≤ Config.memWords) :
    wfFrom a (Memory.ofImage a ws) = true := by
  induction ws generalizing a with
  | nil => rfl
  | cons w ws ih =>
    have hlen : a + 1 + ws.length ≤ Config.memWords := by rw [List.length_cons] at h; omega
    simp only [Memory.ofImage]
    split
    · exact wfFrom_mono (ih (a + 1) hlen) (by omega)
    · next hw => exact wfFrom_cons.2 ⟨le_refl a, by omega, hw, ih (a + 1) hlen⟩

/-- An image that fits makes a canonical memory. -/
theorem wf_ofImage (ws : List Word) (h : ws.length ≤ Config.memWords) :
    (Memory.ofImage 0 ws).wf = true :=
  wfFrom_ofImage 0 ws (by omega)

end Sys2Proof.Machine.Memory
end

