-- ==== Sys2Proof/Laws/Operands.lean ====
section
/-! SUPPORT. The operand words and their resolution: encoding and classifying agree, and what each way of
resolving can answer. -/

namespace Sys2Proof

/-- Classifying a word loses nothing (30_encoding.md R53). -/
@[simp] theorem Operand.encode_ofWord (w : Word) : (Operand.ofWord w).encode = w := by
  have hw := w.isLt
  simp only [Operand.ofWord, Config.regBase, Config.maxOperand]
  split
  · apply BitVec.eq_of_toNat_eq
    simp only [Operand.encode, BitVec.toNat_setWidth]
    omega
  · split
    · apply BitVec.eq_of_toNat_eq
      simp only [Operand.encode, Config.regBase, Fin.val_ofNat, BitVec.toNat_ofNat]
      omega
    · rfl

/-- A classified word is a well-formed operand. -/
@[simp] theorem Operand.wf_ofWord (w : Word) : (Operand.ofWord w).wf = true := by
  simp only [Operand.ofWord]
  split
  · rfl
  · split
    · rfl
    · next h => simpa [Operand.wf] using h

/-- A well-formed operand is the class of the word that spells it. -/
theorem Operand.ofWord_encode {o : Operand} (h : o.wf = true) : Operand.ofWord o.encode = o := by
  cases o with
  | literal v =>
    have hv := v.isLt
    have hn : (v.setWidth 16).toNat = v.toNat := by simp only [BitVec.toNat_setWidth]; omega
    simp only [Operand.encode, Operand.ofWord, Config.regBase, hn]
    rw [if_pos (by omega)]
    congr 1
    apply BitVec.eq_of_toNat_eq
    simp only [BitVec.toNat_setWidth]
    omega
  | register r =>
    have hr := r.isLt
    have hn : (BitVec.ofNat 16 (32768 + r.val)).toNat = 32768 + r.val := by
      simp only [BitVec.toNat_ofNat]; omega
    simp only [Operand.encode, Operand.ofWord, Config.regBase, Config.maxOperand, hn]
    rw [if_neg (by omega), if_pos (by omega)]
    congr 1
    apply Fin.ext
    simp only [Fin.val_ofNat]
    omega
  | invalid w =>
    have hw : Config.maxOperand < w.toNat := by simpa [Operand.wf] using h
    simp only [Config.maxOperand] at hw
    change Operand.ofWord w = _
    simp only [Operand.ofWord, Config.regBase, Config.maxOperand]
    rw [if_neg (by omega), if_neg (by omega)]

namespace Machine

variable {s t : State} {a b c : Operand}

/-- What `withValue` answers as a next state. -/
theorem withValue_next {k : Word → Result} (h : withValue a s k = .next t) :
    (∃ v, s.value a = .ok v ∧ k v = .next t) ∨ ∃ e, s.value a = .error e ∧ t = s.raise e := by
  simp only [withValue] at h
  split at h
  · next v hv => exact .inl ⟨v, hv, h⟩
  · next e he => exact .inr ⟨e, he, by simpa using h.symm⟩

/-- A destination that resolves is a register selector. -/
theorem destination_ok {r : RegNum} (h : destination a = .ok r) : a = .register r := by
  cases a <;> simp_all [destination]

/-- What `withDest` answers as a next state. -/
theorem withDest_next {k : RegNum → Result} (h : withDest a s k = .next t) :
    (∃ r, a = .register r ∧ k r = .next t) ∨ ∃ e, destination a = .error e ∧ t = s.raise e := by
  simp only [withDest] at h
  split at h
  · next r hr => exact .inl ⟨r, destination_ok hr, h⟩
  · next e he => exact .inr ⟨e, he, by simpa using h.symm⟩

/-- What roles `V V` answer as a next state. -/
theorem withVV_next {k : Word → Word → Result} (h : withVV a b s k = .next t) :
    (∃ v w, s.value a = .ok v ∧ s.value b = .ok w ∧ k v w = .next t) ∨ ∃ e, t = s.raise e := by
  obtain ⟨v, hv, h⟩ | ⟨e, -, h⟩ := withValue_next h
  · obtain ⟨w, hw, h⟩ | ⟨e, -, h⟩ := withValue_next h
    · exact .inl ⟨v, w, hv, hw, h⟩
    · exact .inr ⟨e, h⟩
  · exact .inr ⟨e, h⟩

/-- What roles `D V` answer as a next state. -/
theorem withDV_next {k : RegNum → Word → Result} (h : withDV a b s k = .next t) :
    (∃ r v, a = .register r ∧ s.value b = .ok v ∧ k r v = .next t) ∨ ∃ e, t = s.raise e := by
  obtain ⟨r, hr, h⟩ | ⟨e, -, h⟩ := withDest_next h
  · obtain ⟨v, hv, h⟩ | ⟨e, -, h⟩ := withValue_next h
    · exact .inl ⟨r, v, hr, hv, h⟩
    · exact .inr ⟨e, h⟩
  · exact .inr ⟨e, h⟩

/-- What roles `D V V` answer as a next state. -/
theorem withDVV_next {k : RegNum → Word → Word → Result} (h : withDVV a b c s k = .next t) :
    (∃ r v w, a = .register r ∧ s.value b = .ok v ∧ s.value c = .ok w ∧ k r v w = .next t) ∨
      ∃ e, t = s.raise e := by
  obtain ⟨r, hr, h⟩ | ⟨e, -, h⟩ := withDest_next h
  · obtain ⟨v, w, hv, hw, h⟩ | ⟨e, h⟩ := withVV_next h
    · exact .inl ⟨r, v, w, hr, hv, hw, h⟩
    · exact .inr ⟨e, h⟩
  · exact .inr ⟨e, h⟩

/-! ## Operands that resolve -/

theorem withValue_ok {v : Word} {k : Word → Result} (h : s.value a = .ok v) : withValue a s k = k v := by
  simp only [withValue, h]

theorem withVV_ok {v w : Word} {k : Word → Word → Result} (ha : s.value a = .ok v) (hb : s.value b = .ok w) :
    withVV a b s k = k v w := by
  simp only [withVV, withValue_ok ha, withValue_ok hb]

theorem withDV_ok {r : RegNum} {v : Word} {k : RegNum → Word → Result} (hb : s.value b = .ok v) :
    withDV (.register r) b s k = k r v :=
  withValue_ok hb

theorem withDVV_ok {r : RegNum} {v w : Word} {k : RegNum → Word → Word → Result} (hb : s.value b = .ok v)
    (hc : s.value c = .ok w) : withDVV (.register r) b c s k = k r v w :=
  withVV_ok hb hc

/-! ## Resolution always answers: a continuation that answers next, answers next -/

theorem withValue_answers {k : Word → Result} (h : ∀ v, ∃ t, k v = .next t) :
    ∃ t, withValue a s k = .next t := by
  unfold withValue
  split
  · exact h _
  · exact ⟨_, rfl⟩

theorem withDest_answers {k : RegNum → Result} (h : ∀ r, ∃ t, k r = .next t) :
    ∃ t, withDest a s k = .next t := by
  unfold withDest
  split
  · exact h _
  · exact ⟨_, rfl⟩

theorem withVV_answers {k : Word → Word → Result} (h : ∀ v w, ∃ t, k v w = .next t) :
    ∃ t, withVV a b s k = .next t :=
  withValue_answers fun v => withValue_answers fun w => h v w

theorem withDV_answers {k : RegNum → Word → Result} (h : ∀ r v, ∃ t, k r v = .next t) :
    ∃ t, withDV a b s k = .next t :=
  withDest_answers fun r => withValue_answers fun v => h r v

theorem withDVV_answers {k : RegNum → Word → Word → Result} (h : ∀ r v w, ∃ t, k r v w = .next t) :
    ∃ t, withDVV a b c s k = .next t :=
  withDest_answers fun r => withVV_answers fun v w => h r v w

/-- What a two-operand computation answers as a next state. -/
theorem binaryOp_next {f : Word → Word → Word} (h : binaryOp f a b c s = .next t) :
    (∃ r v w, a = .register r ∧ s.value b = .ok v ∧ s.value c = .ok w ∧
      t = (s.setReg r (f v w)).advance 4) ∨ ∃ e, t = s.raise e := by
  obtain ⟨r, v, w, hr, hv, hw, h⟩ | h := withDVV_next h
  · exact .inl ⟨r, v, w, hr, hv, hw, by simpa using h.symm⟩
  · exact .inr h

end Machine

end Sys2Proof
end

