-- ==== Sys2Proof/Laws/Decode.lean ====
section
/-! SUPPORT. What each instruction format's tail can decode to. -/

namespace Sys2Proof

variable {cells rest : List Word} {i : Instr}

theorem operands1_ok {mk : Operand → Instr} (h : operands1 mk cells = .ok (i, rest)) :
    ∃ a, i = mk (.ofWord a) ∧ cells = a :: rest := by
  rcases cells with _ | ⟨a, t⟩ <;> simp_all [operands1]

theorem operands2_ok {mk : Operand → Operand → Instr} (h : operands2 mk cells = .ok (i, rest)) :
    ∃ a b, i = mk (.ofWord a) (.ofWord b) ∧ cells = a :: b :: rest := by
  rcases cells with _ | ⟨a, _ | ⟨b, t⟩⟩ <;> simp_all [operands2]

theorem operands3_ok {mk : Operand → Operand → Operand → Instr} (h : operands3 mk cells = .ok (i, rest)) :
    ∃ a b c, i = mk (.ofWord a) (.ofWord b) (.ofWord c) ∧ cells = a :: b :: c :: rest := by
  rcases cells with _ | ⟨a, _ | ⟨b, _ | ⟨c, t⟩⟩⟩ <;> simp_all [operands3]

end Sys2Proof
end

