-- ==== Sys2Proof/Laws/Io.lean ====
section
/-! SUPPORT. What the input side can do: the service of an `in`, and a debug directive. -/

namespace Sys2Proof.Machine

variable {s t : State} {r : RegNum}

/-- What a directive does: one existing cell, one register, the trace flag, or nothing
(60_exceptions.md R132). -/
theorem applyDirective_cases (d : Directive) (s : State) :
    (∃ a v, a < Config.memWords ∧ applyDirective d s = s.setCell a v) ∨
    (∃ q v, applyDirective d s = s.setReg q v) ∨
    applyDirective d s = { s with traceOn := !s.traceOn } ∨ applyDirective d s = s := by
  cases d with
  | wmem a v =>
    simp only [applyDirective]
    split
    · next h => exact .inl ⟨a, _, h.1, rfl⟩
    · exact .inr (.inr (.inr rfl))
  | wreg q v =>
    simp only [applyDirective]
    split
    · exact .inr (.inl ⟨_, _, rfl⟩)
    · exact .inr (.inr (.inr rfl))
  | debug => exact .inr (.inr (.inl rfl))
  | malformed => exact .inr (.inr (.inr rfl))

/-- A directive keeps everything but memory, the registers and the trace flag. -/
theorem applyDirective_frame (d : Directive) (s : State) :
    (applyDirective d s).pc = s.pc ∧ (applyDirective d s).stack = s.stack ∧
    (applyDirective d s).run = s.run ∧ (applyDirective d s).waiting = s.waiting ∧
    (applyDirective d s).input = s.input ∧ (applyDirective d s).lines = s.lines ∧
    (applyDirective d s).lineTerm = s.lineTerm ∧ (applyDirective d s).output = s.output ∧
    (applyDirective d s).traceLog = s.traceLog := by
  obtain ⟨a, v, -, h⟩ | ⟨q, v, h⟩ | h | h := applyDirective_cases d s <;> simp [h]

/-- A directive keeps memory canonical. -/
theorem applyDirective_wf (d : Directive) {s : State} (h : s.mem.wf = true) :
    (applyDirective d s).mem.wf = true := by
  obtain ⟨a, v, ha, he⟩ | ⟨q, v, he⟩ | he | he := applyDirective_cases d s <;> rw [he]
  · exact Memory.wf_write v h ha
  all_goals exact h

/-- Directives keep everything but memory, the registers and the trace flag. -/
theorem applyDirectives_frame (ds : List Directive) (s : State) :
    (applyDirectives ds s).pc = s.pc ∧ (applyDirectives ds s).stack = s.stack ∧
    (applyDirectives ds s).run = s.run ∧ (applyDirectives ds s).waiting = s.waiting ∧
    (applyDirectives ds s).input = s.input ∧ (applyDirectives ds s).lines = s.lines ∧
    (applyDirectives ds s).lineTerm = s.lineTerm ∧ (applyDirectives ds s).output = s.output ∧
    (applyDirectives ds s).traceLog = s.traceLog := by
  induction ds generalizing s with
  | nil => exact ⟨rfl, rfl, rfl, rfl, rfl, rfl, rfl, rfl, rfl⟩
  | cons d ds ih =>
    have h := applyDirective_frame d s
    have := ih (applyDirective d s)
    simp only [h] at this
    exact this

/-- Directives keep memory canonical. -/
theorem applyDirectives_wf (ds : List Directive) {s : State} (h : s.mem.wf = true) :
    (applyDirectives ds s).mem.wf = true := by
  induction ds generalizing s with
  | nil => exact h
  | cons d ds ih => exact ih (applyDirective_wf d h)

/-- A directive neither reads nor writes the lines, the wait or the trace log. -/
theorem applyDirective_comm (d : Directive) (s : State) (ls : List InputLine) (w : Option RegNum)
    (log : List TraceRecord) :
    applyDirective d { s with lines := ls, waiting := w, traceLog := log } =
      { applyDirective d s with lines := ls, waiting := w, traceLog := log } := by
  cases d <;> simp only [applyDirective] <;> split <;> rfl

/-- Only a `wmem` directive to a cell changes it. -/
theorem applyDirective_read_ne {d : Directive} {x : Nat} (h : (applyDirective d s).mem.read x ≠ s.mem.read x) :
    ∃ v, d = .wmem x v := by
  cases d with
  | wmem a v =>
    simp only [applyDirective] at h
    split at h
    · by_cases hx : x = a
      · exact ⟨v, by rw [hx]⟩
      · exact absurd (Memory.read_write_ne _ _ hx) h
    · exact absurd rfl h
  | wreg q v => simp only [applyDirective] at h; split at h <;> exact absurd rfl h
  | debug => exact absurd rfl h
  | malformed => exact absurd rfl h

/-- Only a `wreg` directive to a register changes it. -/
theorem applyDirective_getReg_ne {d : Directive} {q : RegNum} (h : (applyDirective d s).getReg q ≠ s.getReg q) :
    ∃ v, d = .wreg q.val v := by
  cases d with
  | wreg a v =>
    simp only [applyDirective] at h
    split at h
    · next hb =>
      by_cases hq : q = Fin.ofNat 8 a
      · exact ⟨v, by rw [hq, Fin.val_ofNat, Nat.mod_eq_of_lt hb.1]⟩
      · exact absurd (State.getReg_setReg_ne s _ hq) h
    · exact absurd rfl h
  | wmem a v => simp only [applyDirective] at h; split at h <;> exact absurd rfl h
  | debug => exact absurd rfl h
  | malformed => exact absurd rfl h

/-- Only a `.debug` directive changes the trace flag. -/
theorem applyDirective_traceOn_ne {d : Directive} (h : (applyDirective d s).traceOn ≠ s.traceOn) : d = .debug := by
  cases d with
  | debug => rfl
  | wmem a v => simp only [applyDirective] at h; split at h <;> exact absurd rfl h
  | wreg a v => simp only [applyDirective] at h; split at h <;> exact absurd rfl h
  | malformed => exact absurd rfl h

/-- What no directive of a list changes, the list does not: of anything read off a state by `f`. -/
theorem applyDirectives_ne {α : Type} (f : State → α) (P : Directive → Prop)
    (hP : ∀ d s, f (applyDirective d s) ≠ f s → P d) {ds : List Directive}
    (h : f (applyDirectives ds s) ≠ f s) : ∃ d ∈ ds, P d := by
  induction ds generalizing s with
  | nil => exact absurd rfl h
  | cons d ds ih =>
    by_cases hd : f (applyDirective d s) = f s
    · obtain ⟨e, he, hp⟩ := ih (s := applyDirective d s) (by rw [hd]; exact h)
      exact ⟨e, List.mem_cons_of_mem _ he, hp⟩
    · exact ⟨d, List.mem_cons_self .., hP d s hd⟩

/-- A pull finds the first ordinary line, the directives ahead of it applied. -/
theorem pullLine_directives (ds : List Directive) (cs : List Word) (ls : List InputLine) (s : State) :
    pullLine (ds.map .directive ++ .text cs :: ls) s = some (cs, { applyDirectives ds s with lines := ls }) := by
  induction ds generalizing s with
  | nil => rfl
  | cons d ds ih => exact ih (applyDirective d s)

/-- A pull finds nothing exactly where no ordinary line is left. -/
theorem pullLine_eq_none {ls : List InputLine} : pullLine ls s = none ↔ ∀ cs, .text cs ∉ ls := by
  induction ls generalizing s with
  | nil => simp [pullLine]
  | cons l ls ih =>
    cases l with
    | text c => simp only [pullLine, reduceCtorEq, false_iff]; exact fun h => h c (List.mem_cons_self ..)
    | directive d => simp [pullLine, ih]

/-- What a pull that finds a line has found. -/
theorem pullLine_eq_some {ls : List InputLine} {cs : List Word} (h : pullLine ls s = some (cs, t)) :
    ∃ ds rest, ls = ds.map .directive ++ .text cs :: rest ∧ t = { applyDirectives ds s with lines := rest } := by
  induction ls generalizing s with
  | nil => cases h
  | cons l ls ih =>
    cases l with
    | text c => cases h; exact ⟨[], ls, rfl, rfl⟩
    | directive d =>
      obtain ⟨ds, rest, rfl, rfl⟩ := ih h
      exact ⟨d :: ds, rest, rfl, rfl⟩

/-- The lines hold no ordinary line, or a first one with directives ahead of it. -/
theorem lines_cases (ls : List InputLine) :
    (∀ cs, .text cs ∉ ls) ∨
      ∃ (ds : List Directive) (cs : List Word) (rest : List InputLine),
        ls = ds.map .directive ++ .text cs :: rest := by
  cases h : pullLine ls State.reset with
  | none => exact .inl (pullLine_eq_none.1 h)
  | some p =>
    obtain ⟨ds, rest, hl, -⟩ := pullLine_eq_some (cs := p.1) (t := p.2) h
    exact .inr ⟨ds, p.1, rest, hl⟩

/-- What the service of an `in` answers as a next state: a delivery from the queue, or a delivery from a pulled
line with the directives ahead of it applied. -/
theorem serveInput_next (h : serveInput r s = .next t) :
    (∃ c rest, s.input = c :: rest ∧ t = s.deliver r c rest) ∨
    ∃ ds cs ls c rest, s.input = [] ∧ s.lines = ds.map .directive ++ .text cs :: ls ∧
      cs ++ [s.lineTerm] = c :: rest ∧ t = { applyDirectives ds s with lines := ls }.deliver r c rest := by
  have hlt ds : (applyDirectives ds s).lineTerm = s.lineTerm := (applyDirectives_frame ds s).2.2.2.2.2.2.1
  simp only [serveInput] at h
  split at h
  · next c rest hc => exact .inl ⟨c, rest, hc, by simpa using h.symm⟩
  · next hin =>
    split at h
    · cases h
    · next u hp =>
      obtain ⟨ds, ls, hl, rfl⟩ := pullLine_eq_some hp
      exact .inr ⟨ds, [], ls, _, _, hin, hl, rfl, by simpa [hlt] using h.symm⟩
    · next c cs u hp =>
      obtain ⟨ds, ls, hl, rfl⟩ := pullLine_eq_some hp
      exact .inr ⟨ds, c :: cs, ls, _, _, hin, hl, rfl, by simpa [hlt] using h.symm⟩

/-- A pending code is delivered. -/
theorem serveInput_pending {c : Word} {q : List Word} (h : s.input = c :: q) :
    serveInput r s = .next (s.deliver r c q) := by simp only [serveInput, h]

/-- With the queue empty the first ordinary line is enqueued with its terminator and its first code delivered. -/
theorem serveInput_line {ds : List Directive} {cs : List Word} {ls : List InputLine} {c : Word} {q : List Word}
    (hi : s.input = []) (hl : s.lines = ds.map .directive ++ .text cs :: ls) (hc : cs ++ [s.lineTerm] = c :: q) :
    serveInput r s = .next ({ applyDirectives ds s with lines := ls }.deliver r c q) := by
  have hlt : (applyDirectives ds s).lineTerm = s.lineTerm := (applyDirectives_frame ds s).2.2.2.2.2.2.1
  simp only [serveInput, hi, hl, pullLine_directives]
  cases cs with
  | nil => cases hc; simp only [hlt]
  | cons x xs => cases hc; simp only [hlt]; rfl

/-- With no code and no ordinary line left an `in` has no step (46_io.md R116). -/
theorem serveInput_stuck (hi : s.input = []) (hl : ∀ cs, .text cs ∉ s.lines) :
    serveInput r s = .fault .waitingForInput := by
  simp only [serveInput, hi, pullLine_eq_none.2 hl]

/-- The service of an `in` stops only when no code and no ordinary line is left, and is never refused. -/
theorem serveInput_answers :
    (∃ t, serveInput r s = .next t) ∨
      (s.input = [] ∧ (∀ cs, .text cs ∉ s.lines) ∧ serveInput r s = .fault .waitingForInput) := by
  unfold serveInput
  split
  · exact .inl ⟨_, rfl⟩
  · split
    · exact .inr ⟨‹_›, pullLine_eq_none.1 ‹_›, rfl⟩
    · exact .inl ⟨_, rfl⟩
    · exact .inl ⟨_, rfl⟩

end Sys2Proof.Machine
end

