-- ==== Sys2Proof/Laws/Exec.lean ====
section
/-! SUPPORT. What an instruction can do, said once: every next state of `exec` is one of these effects. -/

namespace Sys2Proof.Machine

/-- The effect of one instruction on a state, by its shape. -/
inductive Effect : Instr → State → State → Prop where
  | raised (i : Instr) (s : State) (c : Cause) : Effect i s (s.raise c)
  | halted (s : State) : Effect .halt s (s.halt .explicit)
  | haltedEmpty (s : State) (h : s.stack = []) : Effect .ret s (s.halt .emptyReturn)
  /-- A register write by an instruction whose first operand names the register. -/
  | wrote (i : Instr) (s : State) (d : RegNum) (v : Word)
      (hd : (operandRoles i).head? = some (.dest, .register d)) (hp : ∀ a, i ≠ .pop a) (hi : ∀ a, i ≠ .input a) :
      Effect i s ((s.setReg d v).advance i.length)
  | advanced (i : Instr) (s : State) : Effect i s (s.advance i.length)
  | jumped (i : Instr) (s : State) (v : Word) (hj : ∃ a b, i = .jmp a ∨ i = .jt a b ∨ i = .jf a b) :
      Effect i s (s.setPc v)
  | pushed (a : Operand) (s : State) (v : Word) (hv : s.value a = .ok v) :
      Effect (.push a) s ((s.pushWord v).advance 2)
  | popped (s : State) (d : RegNum) (v : Word) (st : List Word) (h : s.stack = v :: st) :
      Effect (.pop (.register d)) s (((s.setStack st).setReg d v).advance 2)
  | called (a : Operand) (s : State) (v : Word) (hv : s.value a = .ok v) :
      Effect (.call a) s ((s.pushWord (s.pc + 2)).setPc v)
  | returned (s : State) (v : Word) (st : List Word) (h : s.stack = v :: st) :
      Effect .ret s ((s.setStack st).setPc v)
  | stored (a b : Operand) (s : State) (ea v : Word) (ha : s.value a = .ok ea) (hb : s.value b = .ok v)
      (hea : ea.toNat < Config.memWords) : Effect (.wmem a b) s ((s.setCell ea.toNat v).advance 3)
  | emitted (a : Operand) (s : State) (v : Word) (hv : s.value a = .ok v) :
      Effect (.out a) s ((s.emit (v.setWidth 8)).advance 2)
  | served (s t : State) (r : RegNum) (h : serveInput r s = .next t) : Effect (.input (.register r)) s t

variable {i : Instr} {s t : State}

/-- A raise is an effect of any instruction. -/
theorem Effect.of_raise {c : Cause} (h : t = s.raise c) : Effect i s t := h ▸ .raised i s c

/-- A two-operand computation is a register write or a raise. -/
theorem Effect.of_binaryOp {f : Word → Word → Word} {a b c : Operand} (h : binaryOp f a b c s = .next t)
    (hr : (operandRoles i).head? = some (.dest, a)) (hl : i.length = 4) (hp : ∀ a, i ≠ .pop a)
    (hi : ∀ a, i ≠ .input a) : Effect i s t := by
  obtain ⟨r, v, w, ha, -, -, ht⟩ | ⟨e, ht⟩ := binaryOp_next h
  · have := Effect.wrote i s r (f v w) (by rw [hr, ha]) hp hi
    rwa [hl, ← ht] at this
  · exact .of_raise ht

/-- A branch jumps or advances. -/
theorem Effect.of_branch {p : Bool} {v : Word} (h : branch p v s = .next t) (hl : i.length = 3)
    (hj : ∃ a b, i = .jmp a ∨ i = .jt a b ∨ i = .jf a b) : Effect i s t := by
  simp only [branch] at h
  split at h
  · cases h; exact .jumped i s v hj
  · cases h; have := Effect.advanced i s; rwa [hl] at this

/-- Every next state of `exec` is an effect of its instruction. -/
theorem exec_effect (h : exec i s = .next t) : Effect i s t := by
  cases i with
  | halt => cases h; exact .halted s
  | noop => cases h; exact .advanced .noop s
  | set a b =>
    obtain ⟨r, v, rfl, -, hk⟩ | ⟨e, h⟩ := withDV_next h
    · cases hk; exact .wrote (.set _ b) s r v rfl (by simp) (by simp)
    · exact .of_raise h
  | push a =>
    obtain ⟨v, hv, hk⟩ | ⟨e, -, h⟩ := withValue_next h
    · cases hk; exact .pushed a s v hv
    · exact .of_raise h
  | pop a =>
    obtain ⟨r, rfl, hk⟩ | ⟨e, -, h⟩ := withDest_next h
    · split at hk
      · cases hk; exact .raised _ s _
      · next v st hst => cases hk; exact .popped s r v st hst
    · exact .of_raise h
  | eq a b c => exact .of_binaryOp h rfl rfl (by simp) (by simp)
  | gt a b c => exact .of_binaryOp h rfl rfl (by simp) (by simp)
  | add a b c => exact .of_binaryOp h rfl rfl (by simp) (by simp)
  | mult a b c => exact .of_binaryOp h rfl rfl (by simp) (by simp)
  | and a b c => exact .of_binaryOp h rfl rfl (by simp) (by simp)
  | or a b c => exact .of_binaryOp h rfl rfl (by simp) (by simp)
  | mod a b c =>
    obtain ⟨r, v, w, rfl, -, -, hk⟩ | ⟨e, h⟩ := withDVV_next h
    · split at hk
      · cases hk; exact .raised _ s _
      · cases hk; exact .wrote (.mod _ b c) s r _ rfl (by simp) (by simp)
    · exact .of_raise h
  | not a b =>
    obtain ⟨r, v, rfl, -, hk⟩ | ⟨e, h⟩ := withDV_next h
    · cases hk; exact .wrote (.not _ b) s r _ rfl (by simp) (by simp)
    · exact .of_raise h
  | rmem a b =>
    obtain ⟨r, v, rfl, -, hk⟩ | ⟨e, h⟩ := withDV_next h
    · split at hk
      · cases hk; exact .wrote (.rmem _ b) s r _ rfl (by simp) (by simp)
      · cases hk; exact .raised _ s _
    · exact .of_raise h
  | wmem a b =>
    obtain ⟨ea, v, ha, hb, hk⟩ | ⟨e, h⟩ := withVV_next h
    · by_cases hea : ea.toNat < Config.memWords
      · simp only [State.memWrite, if_pos hea] at hk
        cases hk
        exact .stored a b s ea v ha hb hea
      · simp only [State.memWrite, if_neg hea] at hk
        cases hk
        exact .raised _ s _
    · exact .of_raise h
  | jmp a =>
    obtain ⟨v, hv, hk⟩ | ⟨e, -, h⟩ := withValue_next h
    · cases hk; exact .jumped _ s v ⟨a, a, .inl rfl⟩
    · exact .of_raise h
  | jt a b =>
    obtain ⟨v, w, -, -, hk⟩ | ⟨e, h⟩ := withVV_next h
    · exact .of_branch hk rfl ⟨a, b, .inr (.inl rfl)⟩
    · exact .of_raise h
  | jf a b =>
    obtain ⟨v, w, -, -, hk⟩ | ⟨e, h⟩ := withVV_next h
    · exact .of_branch hk rfl ⟨a, b, .inr (.inr rfl)⟩
    · exact .of_raise h
  | call a =>
    obtain ⟨v, hv, hk⟩ | ⟨e, -, h⟩ := withValue_next h
    · cases hk; exact .called a s v hv
    · exact .of_raise h
  | ret =>
    simp only [exec, execRet] at h
    split at h
    · next hst => cases h; exact .haltedEmpty s hst
    · next v st hst => cases h; exact .returned s v st hst
  | out a =>
    obtain ⟨v, hv, hk⟩ | ⟨e, -, h⟩ := withValue_next h
    · cases hk; exact .emitted a s v hv
    · exact .of_raise h
  | input a =>
    obtain ⟨r, rfl, hk⟩ | ⟨e, -, h⟩ := withDest_next h
    · exact .served s t r hk
    · exact .of_raise h

/-- An instruction answers a next state, but for an `in` that finds no code and no ordinary line. -/
theorem exec_answers (i : Instr) (s : State) :
    (∃ t, exec i s = .next t) ∨
      ∃ r, i = .input (.register r) ∧ s.input = [] ∧ (∀ cs, .text cs ∉ s.lines) ∧
        exec i s = .fault .waitingForInput := by
  cases i with
  | input a =>
    simp only [exec, execIn, withDest]
    split
    · next r hr =>
      obtain h | ⟨hi, hl, h⟩ := serveInput_answers (r := r) (s := s)
      · exact .inl h
      · exact .inr ⟨r, by rw [destination_ok hr], hi, hl, h⟩
    · exact .inl ⟨_, rfl⟩
  | halt => exact .inl ⟨_, rfl⟩
  | noop => exact .inl ⟨_, rfl⟩
  | ret => left; simp only [exec, execRet]; split <;> exact ⟨_, rfl⟩
  | push => exact .inl (withValue_answers fun _ => ⟨_, rfl⟩)
  | jmp => exact .inl (withValue_answers fun _ => ⟨_, rfl⟩)
  | call => exact .inl (withValue_answers fun _ => ⟨_, rfl⟩)
  | out => exact .inl (withValue_answers fun _ => ⟨_, rfl⟩)
  | pop => exact .inl (withDest_answers fun _ => by split <;> exact ⟨_, rfl⟩)
  | set => exact .inl (withDV_answers fun _ _ => ⟨_, rfl⟩)
  | not => exact .inl (withDV_answers fun _ _ => ⟨_, rfl⟩)
  | rmem => exact .inl (withDV_answers fun _ _ => by split <;> exact ⟨_, rfl⟩)
  | wmem => exact .inl (withVV_answers fun _ _ => by split <;> exact ⟨_, rfl⟩)
  | jt => exact .inl (withVV_answers fun _ _ => by unfold branch; split <;> exact ⟨_, rfl⟩)
  | jf => exact .inl (withVV_answers fun _ _ => by unfold branch; split <;> exact ⟨_, rfl⟩)
  | mod => exact .inl (withDVV_answers fun _ _ _ => by split <;> exact ⟨_, rfl⟩)
  | eq => exact .inl (withDVV_answers fun _ _ _ => ⟨_, rfl⟩)
  | gt => exact .inl (withDVV_answers fun _ _ _ => ⟨_, rfl⟩)
  | add => exact .inl (withDVV_answers fun _ _ _ => ⟨_, rfl⟩)
  | mult => exact .inl (withDVV_answers fun _ _ _ => ⟨_, rfl⟩)
  | and => exact .inl (withDVV_answers fun _ _ _ => ⟨_, rfl⟩)
  | or => exact .inl (withDVV_answers fun _ _ _ => ⟨_, rfl⟩)

end Sys2Proof.Machine
end

