-- ==== Sys2Proof/Laws/Fetch.lean ====
section
/-! SUPPORT. What a fetch sees: the cells of its window, and what a fetched instruction implies. -/

namespace Sys2Proof.Machine

variable {s : State} {i : Instr}

theorem Memory.window_succ (m : Memory) {a : Nat} (n : Nat) (h : a < Config.memWords) :
    m.window a (n + 1) = m.read a :: m.window (a + 1) n := by
  simp only [Memory.window, if_pos h]

theorem Memory.window_end (m : Memory) {a : Nat} (n : Nat) (h : Config.memWords ≤ a) : m.window a n = [] := by
  cases n with
  | zero => rfl
  | succ n => simp only [Memory.window]; rw [if_neg (by omega)]

/-- A window holds the cells that exist, no more than asked for. -/
theorem Memory.length_window (m : Memory) (a n : Nat) :
    (m.window a n).length = min n (Config.memWords - a) := by
  induction n generalizing a with
  | zero => simp [Memory.window]
  | succ n ih =>
    by_cases h : a < Config.memWords
    · rw [m.window_succ n h, List.length_cons, ih]; omega
    · rw [m.window_end _ (by omega), List.length_nil]; omega

/-- Each cell of a window is the cell of memory at its address. -/
theorem Memory.window_getElem? (m : Memory) {a n k : Nat} (hk : k < n) (h : a + k < Config.memWords) :
    (m.window a n)[k]? = some (m.read (a + k)) := by
  induction n generalizing a k with
  | zero => omega
  | succ n ih =>
    rw [m.window_succ n (by omega)]
    cases k with
    | zero => rfl
    | succ k =>
      rw [List.getElem?_cons_succ, ih (by omega) (by omega)]
      congr 2
      omega

/-- Cells that lie in memory one after the other begin a window that is long enough. -/
theorem Memory.window_eq_append (m : Memory) {a n : Nat} {xs : List Word} (hn : xs.length ≤ n)
    (ha : a + xs.length ≤ Config.memWords) (h : ∀ k (hk : k < xs.length), m.read (a + k) = xs[k]) :
    ∃ rest, m.window a n = xs ++ rest := by
  induction xs generalizing a n with
  | nil => exact ⟨_, rfl⟩
  | cons x xs ih =>
    simp only [List.length_cons] at hn ha
    obtain ⟨n, rfl⟩ : ∃ k, n = k + 1 := ⟨n - 1, by omega⟩
    obtain ⟨rest, hr⟩ := ih (a := a + 1) (n := n) (by omega) (by omega) fun k hk => by
      have := h (k + 1) (by simpa using hk)
      rwa [show a + (k + 1) = a + 1 + k by omega, List.getElem_cons_succ] at this
    have hx : m.read a = x := h 0 (Nat.succ_pos _)
    exact ⟨rest, by rw [m.window_succ n (by omega), hr, hx]; rfl⟩

/-- Where the cells from `pc` decode, the fetch finds the instruction. -/
theorem fetch_of_decode {rest : List Word} (hp : s.pc.toNat < Config.fetchLimit)
    (h : decode (s.mem.window s.pc.toNat maxCells) = .ok (i, rest)) : s.fetch = .instr i := by
  simp only [State.fetch]
  rw [if_neg (by omega), h]

/-- Where the fetch finds an instruction, `pc` is in memory and the cells from `pc` decode to it. -/
theorem fetch_instr (h : s.fetch = .instr i) :
    s.pc.toNat < Config.fetchLimit ∧ ∃ rest, decode (s.mem.window s.pc.toNat maxCells) = .ok (i, rest) := by
  simp only [State.fetch] at h
  split at h
  · cases h
  · refine ⟨by omega, ?_⟩
    split at h
    · next rest hd => cases h; exact ⟨rest, hd⟩
    · cases h

end Sys2Proof.Machine
end

