-- ==== Sys2Proof/Laws/Step.lean ====
section
/-! SUPPORT. What a step can do, said once, and what the trace leaves alone. -/

namespace Sys2Proof.Machine

variable {s t : State}

/-- Tracing a result changes the trace log of a next state and nothing else. -/
theorem traced_next {r : Result} {f : State → List TraceRecord} (h : Result.traced r f = .next t) :
    ∃ u, r = .next u ∧ t = { u with traceLog := u.traceLog ++ f u } := by
  cases r with
  | next u => exact ⟨u, rfl, by simpa [Result.traced] using h.symm⟩
  | fault f => cases h
  | refused f => cases h

/-- A result whose records are empty is its own trace. -/
theorem traced_eq_self {r : Result} {f : State → List TraceRecord} (h : ∀ u, r = .next u → f u = []) :
    Result.traced r f = r := by
  cases r with
  | next u => simp [Result.traced, h u rfl]
  | fault f => rfl
  | refused f => rfl

/-- A fetched instruction is what the step runs. -/
theorem step_of_fetch {i : Instr} (hr : s.run = .running) (hw : s.waiting = none) (hf : s.fetch = .instr i) :
    step s = traceInstr i s (exec i s) := by
  simp only [step, hr, hw, hf]

/-- A wait whose destination is held is what the step serves. -/
theorem step_of_wait {r : RegNum} (hr : s.run = .running) (hw : s.waiting = some r) :
    step s = traceWait r (serveInput r s) := by
  simp only [step, hr, hw]

/-- Every next state of a step, with what led to it (30_encoding.md R60). -/
theorem step_next (h : step s = .next t) :
    s.run = .running ∧
      ((∃ r u log, s.waiting = some r ∧ serveInput r s = .next u ∧ t = { u with traceLog := log }) ∨
        s.waiting = none ∧
          ((s.fetch = .outOfRange ∧ t = s.halt .outOfRange) ∨
            (∃ c, s.fetch = .illegal c ∧ t = s.raise c) ∨
            ∃ i u log, s.fetch = .instr i ∧ exec i s = .next u ∧ t = { u with traceLog := log })) := by
  simp only [step] at h
  split at h
  · cases h
  · cases h
  · next hrun =>
    refine ⟨hrun, ?_⟩
    split at h
    · next r hw =>
      obtain ⟨u, hu, ht⟩ := traced_next h
      exact .inl ⟨r, u, _, hw, hu, ht⟩
    · next hw =>
      refine .inr ⟨hw, ?_⟩
      split at h
      · next hf => exact .inl ⟨hf, by simpa using h.symm⟩
      · next c hf => exact .inr (.inl ⟨c, hf, by simpa using h.symm⟩)
      · next i hf =>
        obtain ⟨u, hu, ht⟩ := traced_next h
        exact .inr (.inr ⟨i, u, _, hf, hu, ht⟩)

end Sys2Proof.Machine
end

