-- ==== Sys2Proof/Laws/HostMove.lean ====
section
/-! SUPPORT. What a host move can be, and what the next step makes of it. -/

namespace Sys2Proof.Machine

variable {s t : State} {r : RegNum}

/-- An `in` that holds its destination stands at it. -/
theorem State.inDest_waiting (h : s.waiting = some r) : s.inDest = some r := by simp only [State.inDest, h]

/-- An `in` at `pc` has its own destination. -/
theorem State.inDest_fetch (hw : s.waiting = none) (hf : s.fetch = .instr (.input (.register r))) :
    s.inDest = some r := by simp only [State.inDest, hw, hf]

/-- Where a machine that stands at an `in` takes its destination from. -/
theorem State.inDest_eq_some (h : s.inDest = some r) :
    s.waiting = some r ∨ s.waiting = none ∧ s.fetch = .instr (.input (.register r)) := by
  simp only [State.inDest] at h
  split at h
  · next q hq => exact .inl (hq.trans h)
  · next hw =>
    split at h
    · next q hf => exact .inr ⟨hw, by rw [hf, Option.some.inj h]⟩
    · cases h

/-- Every host move, with what enables it: one directive line, applied during the wait of an `in`. -/
theorem hostMove_cases (h : s.hostMove = some t) :
    s.run = .running ∧ s.input = [] ∧ ∃ d ls r, s.lines = .directive d :: ls ∧ s.inDest = some r ∧
      t = applyDirective d ({ s with lines := ls }.enterWait r) := by
  simp only [State.hostMove] at h
  split at h
  · next hc =>
    split at h
    · next d ls r hl hr => exact ⟨hc.1, hc.2, d, ls, r, hl, hr, (Option.some.inj h).symm⟩
    · cases h
  · cases h

/-- A directive line next, during the wait of an `in`, is a host move. -/
theorem hostMove_eq {d : Directive} {ls : List InputLine} (hr : s.run = .running) (hi : s.input = [])
    (hl : s.lines = .directive d :: ls) (hd : s.inDest = some r) :
    s.hostMove = some (applyDirective d ({ s with lines := ls }.enterWait r)) := by
  simp only [State.hostMove, if_pos (And.intro hr hi), hl, hd]

end Sys2Proof.Machine
end

