-- ==== Sys2Proof/Laws/PerInstr.lean ====
section
/-! SUPPORT. Facts about each instruction as syntax, one lemma per constructor. -/

/-- No instruction is longer than four cells (30_encoding.md R50). -/
theorem Sys2Proof.Instr.length_le (i : Sys2Proof.Instr) : i.length ≤ Sys2Proof.maxCells := by
  cases i <;> simp [Sys2Proof.Instr.length, Sys2Proof.encode, Sys2Proof.maxCells]

/-- The cells of an instruction are an opcode word 0..21 and its operand words, one per role, 1 to 4 cells
in all (30_encoding.md R50, R57, R61). -/
def Sys2Proof.Laws.EncodeShape.Statement (i : Sys2Proof.Instr) : Prop :=
  ∃ op : Sys2Proof.Word, op.toNat ≤ 21 ∧
    Sys2Proof.encode i = op :: (Sys2Proof.Machine.operandRoles i).map (fun p => p.2.encode) ∧
    i.length ≤ Sys2Proof.maxCells

theorem Sys2Proof.Laws.EncodeShape.halt : Sys2Proof.Laws.EncodeShape.Statement .halt :=
  ⟨0, by decide, rfl, Sys2Proof.Instr.length_le _⟩

theorem Sys2Proof.Laws.EncodeShape.set (a b : Sys2Proof.Operand) : Sys2Proof.Laws.EncodeShape.Statement (.set a b) :=
  ⟨1, by decide, rfl, Sys2Proof.Instr.length_le _⟩

theorem Sys2Proof.Laws.EncodeShape.push (a : Sys2Proof.Operand) : Sys2Proof.Laws.EncodeShape.Statement (.push a) :=
  ⟨2, by decide, rfl, Sys2Proof.Instr.length_le _⟩

theorem Sys2Proof.Laws.EncodeShape.pop (a : Sys2Proof.Operand) : Sys2Proof.Laws.EncodeShape.Statement (.pop a) :=
  ⟨3, by decide, rfl, Sys2Proof.Instr.length_le _⟩

theorem Sys2Proof.Laws.EncodeShape.eq (a b c : Sys2Proof.Operand) : Sys2Proof.Laws.EncodeShape.Statement (.eq a b c) :=
  ⟨4, by decide, rfl, Sys2Proof.Instr.length_le _⟩

theorem Sys2Proof.Laws.EncodeShape.gt (a b c : Sys2Proof.Operand) : Sys2Proof.Laws.EncodeShape.Statement (.gt a b c) :=
  ⟨5, by decide, rfl, Sys2Proof.Instr.length_le _⟩

theorem Sys2Proof.Laws.EncodeShape.jmp (a : Sys2Proof.Operand) : Sys2Proof.Laws.EncodeShape.Statement (.jmp a) :=
  ⟨6, by decide, rfl, Sys2Proof.Instr.length_le _⟩

theorem Sys2Proof.Laws.EncodeShape.jt (a b : Sys2Proof.Operand) : Sys2Proof.Laws.EncodeShape.Statement (.jt a b) :=
  ⟨7, by decide, rfl, Sys2Proof.Instr.length_le _⟩

theorem Sys2Proof.Laws.EncodeShape.jf (a b : Sys2Proof.Operand) : Sys2Proof.Laws.EncodeShape.Statement (.jf a b) :=
  ⟨8, by decide, rfl, Sys2Proof.Instr.length_le _⟩

theorem Sys2Proof.Laws.EncodeShape.add (a b c : Sys2Proof.Operand) : Sys2Proof.Laws.EncodeShape.Statement (.add a b c) :=
  ⟨9, by decide, rfl, Sys2Proof.Instr.length_le _⟩

theorem Sys2Proof.Laws.EncodeShape.mult (a b c : Sys2Proof.Operand) : Sys2Proof.Laws.EncodeShape.Statement (.mult a b c) :=
  ⟨10, by decide, rfl, Sys2Proof.Instr.length_le _⟩

theorem Sys2Proof.Laws.EncodeShape.mod (a b c : Sys2Proof.Operand) : Sys2Proof.Laws.EncodeShape.Statement (.mod a b c) :=
  ⟨11, by decide, rfl, Sys2Proof.Instr.length_le _⟩

theorem Sys2Proof.Laws.EncodeShape.and (a b c : Sys2Proof.Operand) : Sys2Proof.Laws.EncodeShape.Statement (.and a b c) :=
  ⟨12, by decide, rfl, Sys2Proof.Instr.length_le _⟩

theorem Sys2Proof.Laws.EncodeShape.or (a b c : Sys2Proof.Operand) : Sys2Proof.Laws.EncodeShape.Statement (.or a b c) :=
  ⟨13, by decide, rfl, Sys2Proof.Instr.length_le _⟩

theorem Sys2Proof.Laws.EncodeShape.not (a b : Sys2Proof.Operand) : Sys2Proof.Laws.EncodeShape.Statement (.not a b) :=
  ⟨14, by decide, rfl, Sys2Proof.Instr.length_le _⟩

theorem Sys2Proof.Laws.EncodeShape.rmem (a b : Sys2Proof.Operand) : Sys2Proof.Laws.EncodeShape.Statement (.rmem a b) :=
  ⟨15, by decide, rfl, Sys2Proof.Instr.length_le _⟩

theorem Sys2Proof.Laws.EncodeShape.wmem (a b : Sys2Proof.Operand) : Sys2Proof.Laws.EncodeShape.Statement (.wmem a b) :=
  ⟨16, by decide, rfl, Sys2Proof.Instr.length_le _⟩

theorem Sys2Proof.Laws.EncodeShape.call (a : Sys2Proof.Operand) : Sys2Proof.Laws.EncodeShape.Statement (.call a) :=
  ⟨17, by decide, rfl, Sys2Proof.Instr.length_le _⟩

theorem Sys2Proof.Laws.EncodeShape.ret : Sys2Proof.Laws.EncodeShape.Statement .ret :=
  ⟨18, by decide, rfl, Sys2Proof.Instr.length_le _⟩

theorem Sys2Proof.Laws.EncodeShape.out (a : Sys2Proof.Operand) : Sys2Proof.Laws.EncodeShape.Statement (.out a) :=
  ⟨19, by decide, rfl, Sys2Proof.Instr.length_le _⟩

theorem Sys2Proof.Laws.EncodeShape.input (a : Sys2Proof.Operand) : Sys2Proof.Laws.EncodeShape.Statement (.input a) :=
  ⟨20, by decide, rfl, Sys2Proof.Instr.length_le _⟩

theorem Sys2Proof.Laws.EncodeShape.noop : Sys2Proof.Laws.EncodeShape.Statement .noop :=
  ⟨21, by decide, rfl, Sys2Proof.Instr.length_le _⟩
end

