-- ==== Sys2Proof/Tests/Slice0.lean ====
section
/-! SUPPORT. The model's own tests. Expected values come from spec/95_test_vectors.md (named in each comment)
or from the encoding tables of spec/30_encoding.md; the witnesses meet the hypotheses of the statements. -/

open Sys2Proof Sys2Proof.Machine

namespace Sys2Proof.Tests

/-- The next state of a result, if it is one. -/
def next? : Result → Option State
  | .next s => some s
  | .fault _ => none
  | .refused _ => none

/-- The fault of a result, if it is one. -/
def fault? : Result → Option Fault
  | .next _ => none
  | .fault f => some f
  | .refused _ => none

/-- One step from reset with these cells as the image, read through `f`. -/
def after {α : Type} (cells : List Word) (f : State → α) : Option α :=
  (next? (step (State.resetWith cells))).map f

/-- One step from reset with these cells and this content of `x[1]`, read through `f`. -/
def afterX1 {α : Type} (cells : List Word) (x1 : Word) (f : State → α) : Option α :=
  (next? (step ((State.resetWith cells).setReg 1 x1))).map f

/-- One step at address `pc` with these cells there, read through `f`. -/
def afterAt {α : Type} (pc : Word) (cells : List Word) (f : State → α) : Option α :=
  (next? (step { State.reset with mem := Memory.ofImage pc.toNat cells, pc := pc })).map f

/-! ## WellFormed -/

theorem test_wf_refuses_invalid_below_range : Operand.wf (.invalid 32775) = false := by decide
theorem test_wf_accepts_invalid_in_range : Operand.wf (.invalid 32776) = true := by decide
theorem test_wf_refuses_first_operand : Instr.wf (.push (.invalid 5)) = false := by decide
theorem test_wf_refuses_second_operand : Instr.wf (.set (.register 0) (.invalid 0)) = false := by decide
theorem test_wf_refuses_third_operand : Instr.wf (.add (.register 0) (.literal 1) (.invalid 9)) = false := by decide

/-! ## Decoding: words written out from 30_encoding.md R51, R53, R57 -/

theorem test_decode_halt : decode [0b0000000000000000] = .ok (.halt, []) := by decide
theorem test_decode_set : decode [0b0000000000000001, 0b1000000000000001, 0b0000010011010010] = .ok (.set (.register 1) (.literal 1234), []) := by decide
theorem test_decode_push : decode [0b0000000000000010, 0b0000000000000111] = .ok (.push (.literal 7), []) := by decide
theorem test_decode_pop : decode [0b0000000000000011, 0b1000000000000001] = .ok (.pop (.register 1), []) := by decide
theorem test_decode_eq : decode [0b0000000000000100, 0b1000000000000000, 0b1000000000000001, 0b0000000000001010] = .ok (.eq (.register 0) (.register 1) (.literal 10), []) := by decide
theorem test_decode_gt : decode [0b0000000000000101, 0b1000000000000000, 0b0000000000000101, 0b0000000000000011] = .ok (.gt (.register 0) (.literal 5) (.literal 3), []) := by decide
theorem test_decode_jmp : decode [0b0000000000000110, 0b0000000001100100] = .ok (.jmp (.literal 100), []) := by decide
theorem test_decode_jt : decode [0b0000000000000111, 0b1000000000000000, 0b0000000000000110] = .ok (.jt (.register 0) (.literal 6), []) := by decide
theorem test_decode_jf : decode [0b0000000000001000, 0b1000000000000001, 0b0000000000000000] = .ok (.jf (.register 1) (.literal 0), []) := by decide
theorem test_decode_add : decode [0b0000000000001001, 0b1000000000000000, 0b1000000000000001, 0b0000000000000100] = .ok (.add (.register 0) (.register 1) (.literal 4), []) := by decide
theorem test_decode_mult : decode [0b0000000000001010, 0b1000000000000111, 0b0000000011001000, 0b0111111111111111] = .ok (.mult (.register 7) (.literal 200) (.literal 32767), []) := by decide
theorem test_decode_mod : decode [0b0000000000001011, 0b1000000000000000, 0b0000000000000111, 0b0000000000000011] = .ok (.mod (.register 0) (.literal 7) (.literal 3), []) := by decide
theorem test_decode_and : decode [0b0000000000001100, 0b1000000000000000, 0b0000000000001100, 0b0000000000001010] = .ok (.and (.register 0) (.literal 12) (.literal 10), []) := by decide
theorem test_decode_or : decode [0b0000000000001101, 0b1000000000000000, 0b0000000000001100, 0b0000000000001010] = .ok (.or (.register 0) (.literal 12) (.literal 10), []) := by decide
theorem test_decode_not : decode [0b0000000000001110, 0b1000000000000000, 0b0101010101010101] = .ok (.not (.register 0) (.literal 21845), []) := by decide
theorem test_decode_rmem : decode [0b0000000000001111, 0b1000000000000000, 0b0000000000000111] = .ok (.rmem (.register 0) (.literal 7), []) := by decide
theorem test_decode_wmem : decode [0b0000000000010000, 0b0000000000010100, 0b1000000000000000] = .ok (.wmem (.literal 20) (.register 0), []) := by decide
theorem test_decode_call : decode [0b0000000000010001, 0b0000000000001010] = .ok (.call (.literal 10), []) := by decide
theorem test_decode_ret : decode [0b0000000000010010] = .ok (.ret, []) := by decide
theorem test_decode_out : decode [0b0000000000010011, 0b1000000000000000] = .ok (.out (.register 0), []) := by decide
theorem test_decode_input : decode [0b0000000000010100, 0b1000000000001000] = .ok (.input (.invalid 32776), []) := by decide
theorem test_decode_noop : decode [0b0000000000010101] = .ok (.noop, []) := by decide

/-- A cell whose low bits spell an opcode is none (V-SYS-5, V-SYS-6). -/
theorem test_decode_whole_cell :
    decode [0x0100] = .error (.invalidOpcode 256) ∧ decode [0x8009] = .error (.invalidOpcode 32777) := by decide

/-- A missing operand cell is named (30_encoding.md R60 step 5). -/
theorem test_decode_missing_cell : decode [4, 32768] = .error (.missingCell 2) := by decide

/-- The number of a row as the opcode table numbers it: the second word is bits 31..16. -/
theorem test_table_word :
    decodeTableWord 32 (0x00070000 + 2) = some (.push (.literal 7)) ∧
    decodeTableWord 16 1 = some (.set (.literal 0) (.literal 0)) := by decide

/-! ## One step, from the vectors of 95_test_vectors.md -/

/-- V-SYS-1. -/
theorem test_step_halt :
    after [0] (fun t => (t.run, t.pc)) = some (.halted .explicit, 0) := by decide

/-- V-SYS-8. -/
theorem test_step_empty_image :
    after [] (fun t => t.run) = some (.halted .explicit) := by decide

/-- V-SYS-3. -/
theorem test_step_noop_at_the_last_cell :
    afterAt 32767 [21] (fun t => (t.run, t.pc)) = some (.running, 32768) := by decide

/-- V-SYS-3, second step. -/
theorem test_step_fetch_out_of_range :
    afterAt 32768 [] (fun t => (t.run, t.pc)) = some (.halted .outOfRange, 32768) := by decide

/-- V-SYS-4. -/
theorem test_step_invalid_opcode :
    after [22] (fun t => t.run) = some (.aborted .invalidOpcode 0 22) := by decide

/-- V-MS-1. -/
theorem test_step_set :
    after [1, 32769, 1234] (fun t => (t.regs[1], t.pc)) = some (1234, 3) := by decide

/-- V-MS-2. -/
theorem test_step_set_unreduced :
    afterX1 [1, 32768, 32769] 40000 (fun t => t.regs[0]) = some 40000 := by decide

/-- V-MS-4. -/
theorem test_step_set_literal_destination :
    after [1, 5, 7] (fun t => t.run) = some (.aborted .invalidAddress 0 5) := by decide

/-- V-MS-7. -/
theorem test_step_push :
    after [2, 7] (fun t => (t.stack, t.pc)) = some ([7], 2) := by decide

/-- V-MS-9. -/
theorem test_step_pop :
    (next? (step ((State.resetWith [3, 32769]).setStack [4, 7]))).map (fun t => (t.regs[1], t.stack, t.pc)) = some (4, [7], 2) := by decide

/-- V-MS-10. -/
theorem test_step_pop_destination_before_stack :
    after [3, 9] (fun t => t.run) = some (.aborted .invalidAddress 0 9) := by decide

/-- V-MS-8. -/
theorem test_step_pop_underflow :
    after [3, 32769] (fun t => (t.run, t.pc)) = some (.aborted .stackUnderflow 0 3, 0) := by decide

/-- V-CMP-3. -/
theorem test_step_eq_sixteen_bits :
    afterX1 [4, 32768, 32769, 0] 32768 (fun t => t.regs[0]) = some 0 := by decide

/-- V-CMP-4. -/
theorem test_step_eq_same_source_and_destination :
    after [4, 32768, 32768, 32768] (fun t => t.regs[0]) = some 1 := by decide

/-- V-CMP-9. -/
theorem test_step_gt_unsigned :
    afterX1 [5, 32768, 32769, 32767] 40000 (fun t => t.regs[0]) = some 1 := by decide

/-- V-CMP-7. -/
theorem test_step_gt_equal :
    after [5, 32768, 3, 3] (fun t => t.regs[0]) = some 0 := by decide

/-- V-CT-2. -/
theorem test_step_jmp_out_of_range :
    afterX1 [6, 32769] 50000 (fun t => (t.run, t.pc)) = some (.running, 50000) := by decide

/-- V-CT-6. -/
theorem test_step_jt_sixteen_bits :
    afterX1 [7, 32769, 6] 32768 (fun t => t.pc) = some 6 := by decide

/-- V-CT-7. -/
theorem test_step_jt_validates_target :
    after [7, 0, 40000] (fun t => t.run) = some (.aborted .invalidOperand 0 40000) := by decide

/-- V-CT-8. -/
theorem test_step_jf_taken :
    afterAt 8 [8, 32769, 0] (fun t => t.pc) = some 0 := by decide

/-- V-CT-9. -/
theorem test_step_jf_not_taken :
    afterX1 [8, 32769, 0] 1 (fun t => t.pc) = some 3 := by decide

/-- V-CT-14. -/
theorem test_step_call :
    afterAt 32766 [17, 5] (fun t => (t.stack, t.pc)) = some ([32768], 5) := by decide

/-- V-CT-15. -/
theorem test_step_call_at_the_last_cell :
    afterAt 32767 [17] (fun t => t.run) = some (.aborted .invalidAddress 32767 32768) := by decide

/-- V-CT-11. -/
theorem test_step_ret :
    (next? (step ((State.resetWith [18]).setStack [4, 7]))).map (fun t => (t.pc, t.stack)) = some (4, [7]) := by decide

/-- V-CT-12. -/
theorem test_step_ret_empty :
    afterAt 9 [18] (fun t => (t.run, t.pc)) = some (.halted .emptyReturn, 9) := by decide

/-- V-ALU-2. -/
theorem test_step_add_wraps :
    after [9, 32768, 32767, 1] (fun t => (t.regs[0], t.pc)) = some (0, 4) := by decide

/-- V-ALU-7. -/
theorem test_step_add_reduces :
    afterX1 [9, 32768, 32769, 0] 32768 (fun t => t.regs[0]) = some 0 := by decide

/-- V-ALU-9. -/
theorem test_step_mult :
    after [10, 32768, 200, 200] (fun t => t.regs[0]) = some 7232 := by decide

/-- V-ALU-17. -/
theorem test_step_mult_wraps :
    afterX1 [10, 32768, 32769, 32769] 65535 (fun t => t.regs[0]) = some 1 := by decide

/-- V-ALU-26, one register. -/
theorem test_step_mod_unreduced :
    afterX1 [11, 32768, 32769, 32767] 40000 (fun t => t.regs[0]) = some 7233 := by decide

/-- V-ALU-25. -/
theorem test_step_mod_by_zero_records_the_operand_word :
    after [11, 32768, 5, 32769] (fun t => t.run) = some (.aborted .modByZero 0 32769) := by decide

/-- V-ALU-31, one register. -/
theorem test_step_and_keeps_bit_15 :
    afterX1 [12, 32768, 32769, 32769] 32769 (fun t => t.regs[0]) = some 32769 := by decide

/-- V-ALU-32. -/
theorem test_step_and_clears_bit_15 :
    afterX1 [12, 32768, 32769, 32767] 40000 (fun t => t.regs[0]) = some 7232 := by decide

/-- V-ALU-36. -/
theorem test_step_or_unreduced :
    afterX1 [13, 32768, 32769, 1] 32768 (fun t => t.regs[0]) = some 32769 := by decide

/-- V-ALU-41. -/
theorem test_step_not_ignores_bit_15 :
    afterX1 [14, 32768, 32769] 32768 (fun t => (t.regs[0], t.pc)) = some (32767, 3) := by decide

/-- V-ALU-40. -/
theorem test_step_not_pattern :
    after [14, 32768, 21845] (fun t => t.regs[0]) = some 10922 := by decide

/-- V-ALU-44. -/
theorem test_step_fault_order :
    after [9, 32768, 32776, 32777] (fun t => t.run) = some (.aborted .invalidOperand 0 32776) := by decide

/-- V-MEM-3. -/
theorem test_step_rmem_own_operand :
    afterX1 [15, 32769, 32769] 1 (fun t => (t.regs[1], t.pc)) = some (32769, 3) := by decide

/-- V-MEM-4. -/
theorem test_step_rmem_register_range :
    afterX1 [15, 32768, 32769] 32768 (fun t => t.run) = some (.aborted .invalidAddress 0 32768) := by decide

/-- V-MEM-10. -/
theorem test_step_wmem_itself :
    after [16, 1, 99] (fun t => (t.mem, t.pc)) = some ([(0, 16), (1, 99), (2, 99)], 3) := by decide

/-- V-MEM-9. -/
theorem test_step_wmem_register_range :
    afterX1 [16, 32769, 5] 32768 (fun t => (t.run, t.regs[1])) = some (.aborted .invalidAddress 0 32768, 32768) := by decide

/-- V-MEM-11. -/
theorem test_step_wmem_last_cell :
    after [16, 32767, 1] (fun t => t.mem.read 32767) = some 1 := by decide

/-- V-IO-2. -/
theorem test_step_out_truncates :
    after [19, 300] (fun t => (t.output, t.pc)) = some ([44], 2) := by decide

/-- V-IO-6. -/
theorem test_step_in :
    (next? (step { State.resetWith [20, 32768] with input := [104, 105, 10] })).map (fun t => (t.regs[0], t.pc, t.input)) = some (104, 2, [105, 10]) := by decide

/-- V-IO-8. -/
theorem test_step_in_bad_destination :
    (next? (step { State.resetWith [20, 0] with input := [1] })).map (fun t => (t.run, t.input)) = some (.aborted .invalidAddress 0 0, [1]) := by decide

/-- V-IO-7. -/
theorem test_step_in_sticks :
    fault? (step (State.resetWith [20, 32768])) = some .waitingForInput := by decide

/-- V-END-4. -/
theorem test_step_operand_cells_before_resolution :
    afterAt 32766 [1, 5] (fun t => t.run) = some (.aborted .invalidAddress 32766 32768) := by decide

/-- V-END-3. -/
theorem test_step_last_instruction :
    afterAt 32764 [4, 32768, 1, 1] (fun t => (t.regs[0], t.pc)) = some (1, 32768) := by decide

/-- P5 variant b, the first step: the directive `.wreg 2 77` acts, and `in` takes the `h` of the next line. -/
theorem test_step_in_directive :
    (next? (step { State.resetWith [20, 32768] with lines := [.directive (.wreg 2 77), .text [104, 105]] })).map
      (fun t => (t.regs[2], t.regs[0], t.input, t.lines, t.pc)) = some (77, 104, [105, 10], [], 2) := by decide

/-- 46_io.md R116: a directive delivers no code, so the `in` has no step; 60_exceptions.md R132: the host moves,
and the `in` still waits where it is. -/
theorem test_host_move_is_no_step :
    fault? (step { State.resetWith [20, 32768] with lines := [.directive (.wreg 2 77)] }) = some .waitingForInput ∧
    (State.hostMove { State.resetWith [20, 32768] with lines := [.directive (.wreg 2 77)] }).map
      (fun t => (t.regs[2], t.waiting, t.pc, t.run, t.lines)) = some (77, some 0, 0, .running, []) := by decide

/-- P5: a line is enqueued with its terminator and its first code delivered (46_io.md R114). -/
theorem test_step_in_line :
    (next? (step { State.resetWith [20, 32768] with lines := [.text [104, 105]] })).map
      (fun t => (t.regs[0], t.input, t.pc)) = some (104, [105, 10], 2) := by decide

/-- 46_io.md R114: an empty line contributes the terminator alone. -/
theorem test_step_in_empty_line :
    (next? (step { State.resetWith [20, 32768] with lines := [.text []] })).map
      (fun t => (t.regs[0], t.input)) = some (10, []) := by decide

/-- 46_io.md R111: rewriting the cells of a waiting `in` does not redirect it. -/
theorem test_wait_is_not_redirected :
    (next? (step { State.resetWith [21] with waiting := some 3, lines := [.text [7]] })).map
      (fun t => (t.regs[3], t.pc, t.waiting)) = some (7, 2, none) := by decide

/-- 60_exceptions.md R132: arguments out of bounds change nothing. -/
theorem test_directive_bounds :
    applyDirective (.wmem 32768 1) State.reset = State.reset ∧
    applyDirective (.wreg 8 1) State.reset = State.reset ∧
    applyDirective (.wmem 1 65536) State.reset = State.reset := by decide

/-- 10_state.md R17: an ended run takes no step. -/
theorem test_step_ended : fault? (step (State.reset.halt .explicit)) = some .runEnded := by decide

/-- 20_memory.md R34: little-endian, and an odd stream is refused. -/
theorem test_image_bytes :
    wordsOfBytes [0x09, 0x00, 0x01, 0x80] = .ok [9, 32769] ∧
    wordsOfBytes [1, 2, 3] = .error .trailingPartialWord := by decide

/-- 60_exceptions.md R133: a traced `push 7` emits a record before (depth 0) and one after (depth 1, top 7). -/
theorem test_trace :
    (next? (step { State.resetWith [2, 7] with traceOn := true })).map
      (fun t => t.traceLog.map fun r => (r.phase, r.operands, r.depth, r.top)) =
      some [(.before, [.value 7], 0, none), (.after, [.value 7], 1, some 7)] := by decide

/-- A placed word is fetched from reset and run. -/
theorem test_with_fetch_word :
    (next? (step (State.reset.withFetchWord 32 (0x00070000 + 2)))).map (fun t => t.stack) = some [7] := by decide

/-! ## Witnesses: a state and operands that meet the hypotheses of each statement, each clause of it, at the
boundaries of its ranges -/

/-- A state for the witnesses: `x[0]` = 40000, `x[1]` = 5, a stack, codes, and memory. -/
def w : State :=
  { State.resetWith [21, 32768, 16] with
    regs := #v[40000, 5, 0, 0, 0, 0, 0, 32767], stack := [3, 4], input := [104], lines := [.text [65]] }

/-- The state `w` with nothing pending at the input side and an empty stack. -/
def w0 : State := { w with stack := [], input := [], lines := [] }

theorem witness_SetCopiesSixteenBits :
    (Spec.reg 32775 = some 7 ∧ Spec.val w 32768 = some 40000) ∧
    Spec.reg 32767 = none ∧ Spec.reg 32776 = none ∧ (Spec.reg 32768 = some 0 ∧ Spec.val w 32776 = none) := by decide

theorem witness_PushMakesTheValueTheTop :
    Spec.val w 32767 = some 32767 ∧ Spec.val w 32775 = some 32767 ∧ Spec.val w 32776 = none := by decide

theorem witness_PopTakesTheTopOrUnderflows :
    (Spec.reg 32768 = some 0 ∧ Spec.reg 32775 = some 7 ∧ Spec.reg 32767 = none ∧ Spec.reg 32776 = none) ∧ w0.stack = [] ∧ w.stack = 3 :: [4] := by decide

theorem witness_EqWritesOneOrZero :
    (Spec.reg 32775 = some 7 ∧ Spec.val w 32767 = some 32767 ∧ Spec.val w 32768 = some 40000) ∧
    Spec.reg 32767 = none ∧ Spec.reg 32776 = none ∧
    (Spec.reg 32768 = some 0 ∧ Spec.val w 32776 = none) ∧
    (Spec.reg 32768 = some 0 ∧ Spec.val w 0 = some 0 ∧ Spec.val w 65535 = none) := by decide

theorem witness_GtComparesUnsigned :
    (Spec.reg 32775 = some 7 ∧ Spec.val w 32767 = some 32767 ∧ Spec.val w 32768 = some 40000) ∧
    Spec.reg 32767 = none ∧ Spec.reg 32776 = none ∧
    (Spec.reg 32768 = some 0 ∧ Spec.val w 32776 = none) ∧
    (Spec.reg 32768 = some 0 ∧ Spec.val w 0 = some 0 ∧ Spec.val w 65535 = none) := by decide

theorem witness_AddWritesTheSumModulo32768 :
    (Spec.reg 32775 = some 7 ∧ Spec.val w 32767 = some 32767 ∧ Spec.val w 32768 = some 40000) ∧
    Spec.reg 32767 = none ∧ Spec.reg 32776 = none ∧
    (Spec.reg 32768 = some 0 ∧ Spec.val w 32776 = none) ∧
    (Spec.reg 32768 = some 0 ∧ Spec.val w 0 = some 0 ∧ Spec.val w 65535 = none) := by decide

theorem witness_MultWritesTheProductModulo32768 :
    (Spec.reg 32775 = some 7 ∧ Spec.val w 32767 = some 32767 ∧ Spec.val w 32768 = some 40000) ∧
    Spec.reg 32767 = none ∧ Spec.reg 32776 = none ∧
    (Spec.reg 32768 = some 0 ∧ Spec.val w 32776 = none) ∧
    (Spec.reg 32768 = some 0 ∧ Spec.val w 0 = some 0 ∧ Spec.val w 65535 = none) := by decide

theorem witness_AndIsBitwiseAtFullWidth :
    (Spec.reg 32775 = some 7 ∧ Spec.val w 32767 = some 32767 ∧ Spec.val w 32768 = some 40000) ∧
    Spec.reg 32767 = none ∧ Spec.reg 32776 = none ∧
    (Spec.reg 32768 = some 0 ∧ Spec.val w 32776 = none) ∧
    (Spec.reg 32768 = some 0 ∧ Spec.val w 0 = some 0 ∧ Spec.val w 65535 = none) := by decide

theorem witness_OrIsBitwiseAtFullWidth :
    (Spec.reg 32775 = some 7 ∧ Spec.val w 32767 = some 32767 ∧ Spec.val w 32768 = some 40000) ∧
    Spec.reg 32767 = none ∧ Spec.reg 32776 = none ∧
    (Spec.reg 32768 = some 0 ∧ Spec.val w 32776 = none) ∧
    (Spec.reg 32768 = some 0 ∧ Spec.val w 0 = some 0 ∧ Spec.val w 65535 = none) := by decide

theorem witness_JmpLoadsAnyTarget :
    Spec.val w 32767 = some 32767 ∧ Spec.val w 32775 = some 32767 ∧ Spec.val w 32776 = none := by decide

theorem witness_JtJumpsOnNonZero :
    (Spec.val w 32775 = some 32767 ∧ Spec.val w 32767 = some 32767) ∧ Spec.val w 32776 = none ∧
    (Spec.val w 0 = some 0 ∧ Spec.val w 65535 = none) := by decide

theorem witness_JfJumpsOnZero :
    (Spec.val w 32775 = some 32767 ∧ Spec.val w 32767 = some 32767) ∧ Spec.val w 32776 = none ∧
    (Spec.val w 0 = some 0 ∧ Spec.val w 65535 = none) := by decide

theorem witness_CallPushesTheReturnAddress :
    Spec.val w 32767 = some 32767 ∧ Spec.val w 32775 = some 32767 ∧ Spec.val w 32776 = none := by decide

theorem witness_RetPopsOrHalts :
    w0.stack = [] ∧ w.stack = 3 :: [4] := by decide

theorem witness_ModWritesTheRemainderOrAborts :
    ((Spec.reg 32775 = some 7 ∧ Spec.val w 32767 = some 32767 ∧ Spec.val w 32768 = some 40000) ∧
    Spec.reg 32767 = none ∧ Spec.reg 32776 = none ∧
    (Spec.reg 32768 = some 0 ∧ Spec.val w 32776 = none) ∧
    (Spec.reg 32768 = some 0 ∧ Spec.val w 0 = some 0 ∧ Spec.val w 65535 = none)) ∧
    (Spec.val w 32770 = some 0 ∧ Spec.val w 1 = some 1 ∧ (1 : Word) ≠ 0) := by decide

theorem witness_NotComplementsFifteenBits :
    (Spec.reg 32775 = some 7 ∧ Spec.val w 32768 = some 40000) ∧
    Spec.reg 32767 = none ∧ Spec.reg 32776 = none ∧ (Spec.reg 32768 = some 0 ∧ Spec.val w 32776 = none) := by decide

theorem witness_RmemLoadsOneCell :
    ((Spec.reg 32775 = some 7 ∧ Spec.val w 32768 = some 40000) ∧
    Spec.reg 32767 = none ∧ Spec.reg 32776 = none ∧ (Spec.reg 32768 = some 0 ∧ Spec.val w 32776 = none)) ∧
    (Spec.val w 32768 = some 40000 ∧ 32768 ≤ (40000 : Word).toNat) ∧
    (Spec.val w 32767 = some 32767 ∧ (32767 : Word).toNat ≤ 32767) := by decide

theorem witness_WmemStoresOneCell :
    ((Spec.val w 32775 = some 32767 ∧ Spec.val w 32767 = some 32767) ∧ Spec.val w 32776 = none ∧
    (Spec.val w 0 = some 0 ∧ Spec.val w 65535 = none)) ∧ w.mem.wf = true ∧
    (Spec.val w 32768 = some 40000 ∧ 32768 ≤ (40000 : Word).toNat) ∧
    (Spec.val w 32767 = some 32767 ∧ (32767 : Word).toNat ≤ 32767) := by decide

theorem witness_OutEmitsTheLowEightBits :
    Spec.val w 32767 = some 32767 ∧ Spec.val w 32775 = some 32767 ∧ Spec.val w 32776 = none := by decide

/-- A running machine at an `in` into register 0, its queue empty. -/
def wIn : State := { State.resetWith [20, 32768] with lines := [.directive (.wreg 2 77), .text [65]] }

/-- The same machine in a wait in which the host has moved. -/
def wWait : State := { wIn with waiting := some 0, lines := [.directive .debug, .text [65]] }

theorem witness_InDeliversOneCodeOrSticks :
    (Spec.reg 32768 = some 0 ∧ Spec.reg 32775 = some 7 ∧ Spec.reg 32767 = none ∧ Spec.reg 32776 = none) ∧ w.input = 104 :: [] ∧
    (w0.input = [] ∧ ∀ cs, .text cs ∉ w0.lines) ∧
    ({ w with input := [] }.input = [] ∧ { w with input := [] }.lines = .text [65] :: [] ∧
      [65] ++ [w.lineTerm] = (65 : Word) :: [10]) ∧
    (wIn.input = [] ∧ wIn.lines = [Directive.wreg 2 77].map .directive ++ .text [65] :: [] ∧
      [65] ++ [wIn.lineTerm] = (65 : Word) :: [10]) := by
  refine ⟨by decide, by decide, ⟨by decide, ?_⟩, by decide, by decide⟩
  simp [w0]

theorem witness_ValueResolutionFollowsTheWord :
    (32767 : Word).toNat ≤ 32767 ∧ 32768 ≤ (32768 : Word).toNat ∧ (32775 : Word).toNat ≤ 32775 ∧
    32776 ≤ (32776 : Word).toNat := by decide

theorem witness_DestinationResolutionFollowsTheWord :
    32768 ≤ (32768 : Word).toNat ∧ (32775 : Word).toNat ≤ 32775 ∧ (32767 : Word).toNat ≤ 32767 ∧
    32776 ≤ (32776 : Word).toNat := by decide

theorem witness_DecodeReadsBackEncode :
    Instr.wf (.add (.register 7) (.literal 32767) (.invalid 32776)) = true := by decide

theorem witness_EncodeWritesBackDecode :
    decode [20, 32775, 1] = .ok (.input (.register 7), [1]) := by decide

theorem witness_StepRunsTheDecodedInstruction :
    w.run = .running ∧ w.waiting = none ∧ Instr.wf .noop = true ∧ w.pc.toNat + (encode .noop).length ≤ 32768 ∧
    ∀ k (h : k < (encode .noop).length), w.mem.read (w.pc.toNat + k) = (encode .noop)[k] := by
  refine ⟨by decide, by decide, by decide, by decide, fun k h => ?_⟩
  obtain rfl : k = 0 := by simp [encode] at h; exact h
  rfl

theorem witness_UntracedStepIsExec :
    w.run = .running ∧ w.waiting = none ∧ w.traceOn = false ∧ w.fetch = .instr .noop ∧
    (wIn.run = .running ∧ wIn.waiting = none ∧ wIn.traceOn = false ∧ wIn.fetch = .instr (.input (.register 0))) := by decide

theorem witness_FetchBeyondMemoryHalts :
    { w with pc := 32768 }.run = .running ∧ { w with pc := 32768 }.waiting = none ∧
    32768 ≤ { w with pc := 32768 }.pc.toNat := by decide

theorem witness_IllegalOpcodeAborts :
    { w with pc := 1 }.run = .running ∧ { w with pc := 1 }.waiting = none ∧ { w with pc := 1 }.pc.toNat ≤ 32767 ∧
    22 ≤ ({ w with pc := 1 }.mem.read 1).toNat := by decide

/-- A `call` in the last cell of memory. -/
def wEnd : State := { w with mem := [(32767, 17)], pc := 32767 }

theorem witness_OperandCellBeyondMemoryAborts :
    wEnd.run = .running ∧ wEnd.waiting = none ∧ wEnd.pc.toNat ≤ 32767 ∧
    (encode (.call (.literal 5))).head? = some (wEnd.mem.read wEnd.pc.toNat) ∧
    32768 < wEnd.pc.toNat + (Instr.call (.literal 5)).length := by decide

theorem witness_EndedRunTakesNoStep :
    (w.halt .explicit).run ≠ .running ∧ (w.raise ⟨.modByZero, 0⟩).run ≠ .running := by decide

theorem witness_DirectiveChangesOneCellOneRegisterOrTheFlag :
    w.mem.wf = true ∧ 32767 ≤ 32767 ∧ 65535 ≤ 65535 := by decide

theorem witness_DirectiveLineIsConsumedDuringTheWait :
    wIn.run = .running ∧ wIn.input = [] ∧ wIn.lines = .directive (.wreg 2 77) :: [.text [65]] ∧
    wIn.waiting = none ∧ wIn.fetch = .instr (.input (.register 0)) ∧ wIn.hostMove.isSome = true ∧
    { wIn with waiting := some 0 }.waiting = some 0 ∧
    { wIn with lines := [.directive .debug] }.lines = .directive .debug :: [] ∧
    ∀ cs, InputLine.text cs ∉ ([] : List InputLine) := by
  refine ⟨by decide, by decide, by decide, by decide, by decide, by decide, by decide, by decide, ?_⟩
  simp

theorem witness_HostMoveChangesOnlyWhatItsDirectiveNames :
    wIn.hostMove.map (fun t => (t.regs[2], t.pc)) = some (77, 0) ∧ wIn.regs[2] = 0 ∧ wIn.inv = true ∧
    (State.hostMove { wIn with lines := [.directive (.wmem 0 21)] }).map (fun t => t.mem.read 0) = some 21 ∧
    wIn.mem.read 0 = 20 ∧
    (State.hostMove { wIn with lines := [.directive .debug] }).map (fun t => t.traceOn) = some true ∧
    wIn.traceOn = false := by decide

theorem witness_WaitingInCompletesIntoItsRegister :
    wWait.run = .running ∧ wWait.waiting = some 0 ∧ wWait.input = [] ∧
    wWait.lines = [Directive.debug].map .directive ++ .text [65] :: [] ∧
    [65] ++ [wWait.lineTerm] = (65 : Word) :: [10] ∧ ∀ cs, .text cs ∉ { wWait with lines := [] }.lines := by
  refine ⟨by decide, by decide, by decide, by decide, by decide, ?_⟩
  simp

theorem witness_OfferedLineLetsTheWaitGoOn :
    step { wIn with lines := [] } = .fault .waitingForInput := rfl

theorem witness_AbortIsPrecise :
    (next? (step (State.resetWith [3, 32768]))).map (fun t => t.run) = some (.aborted .stackUnderflow 0 3) := by decide

theorem witness_HaltLeavesTheStateAsItIs :
    (next? (step w0)).isSome = true ∧ (next? (step { w0 with mem := [] })).map (fun t => t.run) = some (.halted .explicit) := by decide

theorem witness_InstructionsAbortOnlyForListedCauses :
    w0.run = .running ∧ Instr.wf (.mod (.register 0) (.literal 1) (.literal 0)) = true ∧
    (next? (exec (.mod (.register 0) (.literal 1) (.literal 0)) w0)).map (fun t => t.run) =
      some (.aborted .modByZero 0 0) := by decide

theorem witness_MemoryChangesOnlyByWmemOrDirective :
    (next? (exec (.wmem (.literal 32767) (.literal 9)) w)).map (fun t => t.mem.read 32767) = some 9 ∧
    w.mem.read 32767 = 0 ∧
    (next? (exec (.input (.register 0)) { wIn with lines := [.directive (.wmem 9 9), .text []] })).map
      (fun t => t.mem.read 9) = some 9 ∧ wIn.mem.read 9 = 0 := by decide

theorem witness_RegistersChangeOnlyAsDestination :
    (next? (exec (.set (.register 7) (.literal 9)) w)).map (fun t => t.regs[7]) = some 9 ∧ w.regs[7] = 32767 ∧
    (next? (exec (.input (.register 0)) wIn)).map (fun t => t.regs[2]) = some 77 ∧ wIn.regs[2] = 0 := by decide

theorem witness_StackChangesOnlyByItsFourInstructions :
    (next? (exec .ret w)).map (fun t => t.stack) = some [4] ∧ w.stack = [3, 4] := by decide

theorem witness_PortsChangeOnlyByOutAndIn :
    (next? (exec (.out (.literal 300)) w)).map (fun t => t.output) = some [44] ∧ w.output = [] ∧
    (next? (exec (.input (.register 2)) w)).map (fun t => t.input) = some [] ∧ w.input = [104] := by decide

theorem witness_CompletedInstructionAdvancesByItsLength :
    w.run = .running ∧ (next? (exec .noop w)).map (fun t => t.run) = some .running ∧
    ∀ a b : Operand, Instr.noop ≠ .jmp a ∧ Instr.noop ≠ .jt a b ∧ Instr.noop ≠ .jf a b ∧ Instr.noop ≠ .call a ∧
      Instr.noop ≠ .ret := by
  refine ⟨by decide, by decide, fun a b => ?_⟩
  simp

theorem witness_StoredWordIsFetchedNext :
    w.mem.wf = true ∧ Spec.val w 3 = some 3 ∧ Spec.val w 32768 = some 40000 ∧ (3 : Word).toNat ≤ 32767 ∧
    (next? (exec (.wmem (.ofWord 3) (.ofWord 32768)) w)).map (fun t => (t.run, t.waiting, t.pc)) =
      some (.running, none, 3) ∧ 22 ≤ (40000 : Word).toNat := by decide

theorem witness_RetResumesAfterItsCall :
    Spec.val w 32775 = some 32767 := by decide

theorem witness_PopsReverseThePushes :
    Spec.val w 1 = some 1 ∧ Spec.val w 32768 = some 40000 ∧ Spec.val w 32775 = some 32767 := by decide

/-- A state in the Word range. -/
def wWord : State := { w with regs := #v[32767, 0, 0, 0, 0, 0, 0, 2], mem := [(2, 9)] }

theorem witness_WordRangeIsKept :
    wWord.mem.wf = true ∧ wWord.inWordRange = true ∧
    (next? (exec (.rmem (.register 0) (.register 7)) wWord)).map (fun t => t.regs[0]) = some 9 ∧
    wWord.value (.register 7) = .ok 2 ∧ (wWord.mem.read 2).toNat ≤ 32767 ∧ wWord.pc.toNat + 2 ≤ 32767 := by decide

theorem witness_MemoriesThatReadAlikeAreEqual :
    Memory.wf [(0, 1), (32767, 2)] = true ∧ Memory.wf [(0, 0)] = false ∧ Memory.wf [(1, 1), (0, 1)] = false ∧
    Memory.wf [(32768, 1)] = false := by decide

theorem witness_ResetLeavesTheImageAndZeros :
    [9, 32768, 32769, 4].length ≤ 32768 := by decide

theorem witness_ImageBytesAreLittleEndian :
    [(1 : BitVec 8)].length % 2 = 1 ∧ (List.replicate 4 (1 : BitVec 8)).length % 2 = 0 ∧
    (List.replicate 65538 (1 : BitVec 8)).length % 2 = 0 ∧ 65536 < (List.replicate 65538 (1 : BitVec 8)).length := by
  refine ⟨by decide, by decide, ?_, ?_⟩ <;> simp only [List.length_replicate, Nat.reduceMod, Nat.reduceLT]

theorem witness_PlacedInstructionRunsNext :
    State.reset.mem.wf = true ∧ decodeTableWord 16 21 = some .noop := by decide

theorem witness_StepKeepsTheInvariant :
    w.inv = true ∧ (next? (step w)).isSome = true ∧ wWait.inv = true ∧ (next? (step wWait)).isSome = true := by decide

theorem witness_TracedStepEmitsBeforeAndAfter :
    { w with traceOn := true }.run = .running ∧ { w with traceOn := true }.waiting = none ∧
    { w with traceOn := true }.traceOn = true ∧ { w with traceOn := true }.fetch = .instr .noop ∧
    (next? (exec .noop { w with traceOn := true })).map (fun t => t.traceOn) = some true := by decide

end Sys2Proof.Tests
end

section
/-! SUPPORT. The rules of the state (10_state.md): what an instruction leaves alone, what a register and a cell can
become, and the statements about them. -/

namespace Sys2Proof.Machine

variable {s t u : State} {i : Instr} {q r : RegNum}

/-! ## What an instruction leaves alone -/

/-- The service of an `in` ends the wait, keeps the stack, and changes memory by directives alone. -/
theorem serveInput_frame (h : serveInput r s = .next t) :
    t.waiting = none ∧ t.stack = s.stack ∧ ∃ ds, t.mem = (applyDirectives ds s).mem := by
  obtain ⟨c, rest, -, rfl⟩ | ⟨ds, cs, ls, c, rest, -, -, -, rfl⟩ := serveInput_next h
  · exact ⟨rfl, rfl, [], rfl⟩
  · obtain ⟨-, hstack, -⟩ := applyDirectives_frame ds s
    exact ⟨rfl, hstack, ds, rfl⟩

/-- No instruction begins a wait. -/
theorem exec_waiting (hw : s.waiting = none) (h : exec i s = .next t) : t.waiting = none := by
  cases exec_effect h with
  | served _ _ _ hserve => exact (serveInput_frame hserve).1
  | _ => exact hw

/-- Every instruction keeps memory canonical. -/
theorem exec_wf (hm : s.mem.wf = true) (h : exec i s = .next t) : t.mem.wf = true := by
  cases exec_effect h with
  | stored _ _ _ ea v _ _ hea => exact Memory.wf_write v hm hea
  | served _ _ _ hserve =>
    obtain ⟨-, -, ds, hmem⟩ := serveInput_frame hserve
    exact hmem ▸ applyDirectives_wf ds hm
  | _ => exact hm

/-! ## The invariant -/

/-- A machine that does not wait meets the invariant as soon as its memory is canonical. -/
theorem State.inv_of_not_waiting (hm : s.mem.wf = true) (hw : s.waiting = none) : s.inv = true := by
  simp only [State.inv, State.waitOk, hm, hw, Option.isNone_none, Bool.true_or, Bool.and_self]

/-- The invariant includes the canonical form of memory. -/
theorem State.wf_of_inv (h : s.inv = true) : s.mem.wf = true :=
  (Bool.and_eq_true_iff.1 h).1

/-- After any step that answers a next state no `in` waits. -/
theorem step_waiting (h : step s = .next t) : t.waiting = none := by
  obtain ⟨-, ⟨r, u, log, -, hu, rfl⟩ | ⟨hw, ⟨-, rfl⟩ | ⟨c, -, rfl⟩ | ⟨i, u, log, -, hu, rfl⟩⟩⟩ := step_next h
  · exact (serveInput_frame hu).1
  · exact hw
  · exact hw
  · exact exec_waiting (t := u) hw hu

/-- Every step keeps memory canonical. -/
theorem step_wf (hm : s.mem.wf = true) (h : step s = .next t) : t.mem.wf = true := by
  obtain ⟨-, ⟨r, u, log, -, hu, rfl⟩ | ⟨-, ⟨-, rfl⟩ | ⟨c, -, rfl⟩ | ⟨i, u, log, -, hu, rfl⟩⟩⟩ := step_next h
  · exact exec_wf (i := .input (.register r)) (t := u) hm hu
  · exact hm
  · exact hm
  · exact exec_wf (t := u) hm hu

/-- Settles O56: a step keeps memory canonical and leaves no wait behind. -/
theorem stepKeepsTheInvariant : Obligations.StepKeepsTheInvariant := by
  intro s t hs h
  exact State.inv_of_not_waiting (step_wf (State.wf_of_inv hs) h) (step_waiting h)

/-- Settles O57: the memory of reset is empty, and nothing waits. -/
theorem resetMeetsTheInvariant : Obligations.ResetMeetsTheInvariant :=
  State.inv_of_not_waiting rfl rfl

/-! ## Registers and stack change only by the instructions that name them -/

/-- A register write changes no other register. -/
theorem State.eq_of_getReg_setReg_ne {v : Word} (h : (s.setReg r v).getReg q ≠ s.getReg q) : q = r := by
  by_contra hq
  exact h (State.getReg_setReg_ne s v hq)

/-- What changes a register `q`: an instruction whose destination it is, or a `wreg` directive that an `in`
consumes ahead of its line. -/
theorem exec_getReg_ne (h : exec i s = .next t) (hq : t.getReg q ≠ s.getReg q) :
    (operandRoles i).head? = some (.dest, .register q) ∨
    ∃ (r : RegNum) (ds : List Directive) (cs : List Word) (ls : List InputLine) (v : Nat),
      i = .input (.register r) ∧ s.input = [] ∧ s.lines = ds.map .directive ++ .text cs :: ls ∧
        .wreg q.val v ∈ ds := by
  cases exec_effect h with
  | wrote _ _ d v hd => exact .inl (State.eq_of_getReg_setReg_ne hq ▸ hd)
  | popped _ d v st => exact .inl (State.eq_of_getReg_setReg_ne (s := s.setStack st) hq ▸ rfl)
  | served _ _ r hserve =>
    by_cases hr : q = r
    · exact .inl (hr ▸ rfl)
    obtain ⟨c, rest, -, rfl⟩ | ⟨ds, cs, ls, c, rest, hin, hl, -, rfl⟩ := serveInput_next hserve
    · exact absurd (State.getReg_setReg_ne _ c hr) hq
    · have hds : (applyDirectives ds s).getReg q ≠ s.getReg q := by
        rwa [← State.getReg_setReg_ne (applyDirectives ds s) c hr]
      obtain ⟨d, hmem, v, rfl⟩ := applyDirectives_ne (·.getReg q) (∃ v, · = .wreg q.val v)
        (fun _ _ => applyDirective_getReg_ne) hds
      exact .inr ⟨r, ds, cs, ls, v, rfl, hin, hl, hmem⟩
  | _ => exact absurd rfl hq

/-- The twelve instructions with a register destination (10_state.md R13). -/
theorem instr_of_dest (h : (operandRoles i).head? = some (.dest, .register q)) :
    ∃ b c, i = .set (.register q) b ∨ i = .pop (.register q) ∨ i = .eq (.register q) b c ∨
      i = .gt (.register q) b c ∨ i = .add (.register q) b c ∨ i = .mult (.register q) b c ∨
      i = .mod (.register q) b c ∨ i = .and (.register q) b c ∨ i = .or (.register q) b c ∨
      i = .not (.register q) b ∨ i = .rmem (.register q) b ∨ i = .input (.register q) := by
  cases i with
  | set a b | not a b | rmem a b => cases h; exact ⟨b, b, by simp⟩
  | pop a | input a => cases h; exact ⟨.register q, .register q, by simp⟩
  | eq a b c | gt a b c | add a b c | mult a b c | mod a b c | and a b c | or a b c =>
    cases h; exact ⟨b, c, by simp⟩
  | _ => cases h

/-- Settles O44: `exec_getReg_ne`, with the destinations spelled out. -/
theorem registersChangeOnlyAsDestination : Obligations.RegistersChangeOnlyAsDestination := by
  intro i s t q h hq
  exact (exec_getReg_ne h hq).imp_left instr_of_dest

/-- Settles O45: of the effects an instruction can have, four touch the stack. -/
theorem stackChangesOnlyByItsFourInstructions : Obligations.StackChangesOnlyByItsFourInstructions := by
  intro i s t h hne
  cases exec_effect h with
  | pushed a => exact .inl ⟨a, .inl rfl⟩
  | popped _ d => exact .inl ⟨.register d, .inr (.inl rfl)⟩
  | called a => exact .inl ⟨a, .inr (.inr rfl)⟩
  | returned => exact .inr rfl
  | served _ _ _ hserve => exact absurd (serveInput_frame hserve).2.1 hne
  | _ => exact absurd rfl hne

/-! ## Push and pop -/

/-- The spec's value table gives what the model's resolver gives (30_encoding.md R54). -/
theorem value_of_val {w v : Word} (h : Spec.val s w = some v) : s.value (.ofWord w) = .ok v := by
  have hw := w.isLt
  simp only [Spec.val] at h
  split at h
  · next hlit =>
    cases h
    have hset : (w.setWidth 15).setWidth 16 = w := by
      apply BitVec.eq_of_toNat_eq
      simp only [BitVec.toNat_setWidth]
      omega
    simp only [Operand.ofWord, Config.regBase, if_pos (show w.toNat < 32768 by omega), State.value, hset]
  · split at h
    · next hlit hreg =>
      cases h
      have hnum : Fin.ofNat 8 w.toNat = Spec.regNum w := by
        apply Fin.ext
        simp only [Spec.regNum, Fin.val_ofNat]
        omega
      simp only [Operand.ofWord, Config.regBase, Config.maxOperand, if_neg (show ¬ w.toNat < 32768 by omega),
        if_pos hreg, State.value, hnum, State.getReg]
    · cases h

/-- Operands resolve alike in states with the same registers. -/
theorem value_congr (h : t.regs = s.regs) (a : Operand) : t.value a = s.value a := by
  cases a <;> simp only [State.value, State.getReg, h]

/-- A `push` whose operand resolves puts the value on top and keeps the registers. -/
theorem exec_push {a : Operand} {v : Word} (h : s.value a = .ok v) :
    ∃ t, exec (.push a) s = .next t ∧ t.stack = v :: s.stack ∧ t.regs = s.regs :=
  ⟨(s.pushWord v).advance 2, withValue_ok h, rfl, rfl⟩

/-- A `pop` into a register takes the top of a stack that is not empty. -/
theorem exec_pop (r : RegNum) {v : Word} {st : List Word} (h : s.stack = v :: st) :
    ∃ t, exec (.pop (.register r)) s = .next t ∧ t.regs[r] = v ∧ t.stack = st :=
  ⟨((s.setStack st).setReg r v).advance 2, by simp only [exec, execPop, withDest, destination, h],
    State.getReg_setReg_same _ r v, rfl⟩

/-- Settles O50: three `push`es leave `vc, vb, va` on top of the stack, and each `pop` takes the top. -/
theorem popsReverseThePushes : Obligations.PopsReverseThePushes := by
  intro s a b c va vb vc d e f ha hb hc
  obtain ⟨s₁, hs₁, hst₁, hr₁⟩ := exec_push (value_of_val ha)
  obtain ⟨s₂, hs₂, hst₂, hr₂⟩ := exec_push ((value_congr hr₁ _).trans (value_of_val hb))
  obtain ⟨s₃, hs₃, hst₃, -⟩ := exec_push ((value_congr (hr₂.trans hr₁) _).trans (value_of_val hc))
  obtain ⟨t₁, ht₁, hd, hu₁⟩ := exec_pop d hst₃
  obtain ⟨t₂, ht₂, he, hu₂⟩ := exec_pop e (hu₁.trans hst₂)
  obtain ⟨t₃, ht₃, hf, hu₃⟩ := exec_pop f (hu₂.trans hst₁)
  exact ⟨s₁, s₂, s₃, t₁, t₂, t₃, hs₁, hs₂, hs₃, ht₁, hd, ht₂, he, ht₃, hf, hu₃⟩

/-! ## Ended runs, and reset -/

/-- Settles O34: the run state is what a step looks at first. -/
theorem endedRunTakesNoStep : Obligations.EndedRunTakesNoStep := by
  intro s h
  unfold step
  split
  · rfl
  · rfl
  · next hrun => exact absurd hrun h

/-- The memory of an image holds its first word at the first address, and the rest from the next on. -/
theorem Memory.read_ofImage_cons {a : Nat} {w : Word} {ws : List Word}
    (h : a + (w :: ws).length ≤ Config.memWords) (x : Nat) :
    (Memory.ofImage a (w :: ws)).read x = if a = x then w else (Memory.ofImage (a + 1) ws).read x := by
  have hwf : Memory.wfFrom (a + 1) (Memory.ofImage (a + 1) ws) = true :=
    Memory.wfFrom_ofImage _ _ (by rw [List.length_cons] at h; omega)
  simp only [Memory.ofImage]
  split
  · next hw =>
    split
    · next hx => rw [hw]; exact Memory.read_of_lt hwf (by omega)
    · rfl
  · rfl

/-- A cell of the memory of an image holds the image's word, and 0 above the image (20_memory.md R45). -/
theorem Memory.read_ofImage {a : Nat} {ws : List Word} (h : a + ws.length ≤ Config.memWords) (k : Nat) :
    (Memory.ofImage a ws).read (a + k) = ws.getD k Memory.unlisted := by
  induction ws generalizing a k with
  | nil => rfl
  | cons w ws ih =>
    rw [Memory.read_ofImage_cons h]
    cases k with
    | zero => rw [if_pos (by omega)]; rfl
    | succ k =>
      rw [if_neg (by omega), show a + (k + 1) = a + 1 + k by omega,
        ih (by rw [List.length_cons] at h; omega), List.getD_cons_succ]

/-- Cell `k` after reset with an image that fits. -/
theorem State.read_resetWith {image : List Word} (h : image.length ≤ Config.memWords) (k : Nat) :
    (State.resetWith image).mem.read k = image.getD k Memory.unlisted := by
  have := Memory.read_ofImage (a := 0) (ws := image) (by omega) k
  rwa [Nat.zero_add] at this

/-- Settles O53: memory by `State.read_resetWith`, the other fields as reset sets them. -/
theorem resetLeavesTheImageAndZeros : Obligations.ResetLeavesTheImageAndZeros := by
  intro image himage
  refine ⟨fun k hk => ?_, fun k hk => ?_, fun r => ?_, rfl, rfl, rfl, rfl, rfl,
    State.inv_of_not_waiting (Memory.wf_ofImage image himage) rfl, rfl⟩
  · rw [State.read_resetWith himage, List.getD_eq_getElem _ _ hk]
  · rw [State.read_resetWith himage, List.getD_eq_default _ _ hk]; rfl
  · exact Vector.getElem_replicate r.isLt

/-! ## The Word range -/

theorem isWordValue_iff {v : Word} : isWordValue v = true ↔ v.toNat < 32768 := by
  simp only [isWordValue, decide_eq_true_eq]

theorem isWordValue_ofNat {n : Nat} (h : n < 32768) : isWordValue (BitVec.ofNat 16 n) = true := by
  rw [isWordValue_iff, BitVec.toNat_ofNat]
  omega

theorem isWordValue_truthWord (p : Bool) : isWordValue (truthWord p) = true := by
  cases p <;> rfl

theorem isWordValue_modWord {v w : Word} (hv : isWordValue v = true) : isWordValue (modWord v w) = true :=
  isWordValue_ofNat ((Nat.mod_le _ _).trans_lt (isWordValue_iff.1 hv))

theorem isWordValue_and {v w : Word} (hv : isWordValue v = true) : isWordValue (v &&& w) = true := by
  rw [isWordValue_iff, BitVec.toNat_and]
  exact Nat.and_le_left.trans_lt (isWordValue_iff.1 hv)

theorem isWordValue_or {v w : Word} (hv : isWordValue v = true) (hw : isWordValue w = true) :
    isWordValue (v ||| w) = true := by
  rw [isWordValue_iff] at hv hw ⊢
  rw [BitVec.toNat_or]
  exact Nat.or_lt_two_pow (n := 15) hv hw

theorem isWordValue_notWord (v : Word) : isWordValue (notWord v) = true := by
  rw [notWord, BitVec.and_comm]
  exact isWordValue_and rfl

/-- `State.inWordRange`, taken apart. -/
structure WordRange (s : State) : Prop where
  regs : ∀ r, isWordValue (s.getReg r) = true
  stack : ∀ v ∈ s.stack, isWordValue v = true
  input : ∀ v ∈ s.input, isWordValue v = true
  lines : ∀ l ∈ s.lines, lineInWordRange l = true
  lineTerm : isWordValue s.lineTerm = true

theorem inWordRange_iff : s.inWordRange = true ↔ WordRange s := by
  have hregs : (∀ v ∈ s.regs.toList, isWordValue v = true) ↔ ∀ r, isWordValue (s.getReg r) = true := by
    simp only [State.getReg, Vector.mem_toList_iff, Vector.mem_iff_getElem, Fin.forall_iff, forall_exists_index,
      Fin.getElem_fin]
    exact ⟨fun h n hn => h _ n hn rfl, fun h v n hn hv => hv ▸ h n hn⟩
  simp only [State.inWordRange, Bool.and_eq_true, List.all_eq_true, hregs]
  constructor
  · rintro ⟨⟨⟨⟨hregs, hstack⟩, hinput⟩, hlines⟩, hterm⟩
    exact ⟨hregs, hstack, hinput, hlines, hterm⟩
  · rintro ⟨hregs, hstack, hinput, hlines, hterm⟩
    exact ⟨⟨⟨⟨hregs, hstack⟩, hinput⟩, hlines⟩, hterm⟩

namespace WordRange

/-- The range speaks of these five fields alone. -/
theorem congr (hs : WordRange s) (hregs : t.regs = s.regs) (hstack : t.stack = s.stack) (hinput : t.input = s.input)
    (hlines : t.lines = s.lines) (hterm : t.lineTerm = s.lineTerm) : WordRange t where
  regs r := by simpa only [State.getReg, hregs] using hs.regs r
  stack := hstack ▸ hs.stack
  input := hinput ▸ hs.input
  lines := hlines ▸ hs.lines
  lineTerm := hterm ▸ hs.lineTerm

theorem setPc (hs : WordRange s) (v : Word) : WordRange (s.setPc v) := hs.congr rfl rfl rfl rfl rfl

theorem advance (hs : WordRange s) (n : Nat) : WordRange (s.advance n) := hs.setPc _

theorem raise (hs : WordRange s) (c : Cause) : WordRange (s.raise c) := hs.congr rfl rfl rfl rfl rfl

theorem setReg (hs : WordRange s) {v : Word} (hv : isWordValue v = true) : WordRange (s.setReg r v) where
  __ := hs
  regs q := by
    rw [State.getReg_setReg]
    split
    · exact hv
    · exact hs.regs q

theorem setStack (hs : WordRange s) {st : List Word} (hst : ∀ v ∈ st, isWordValue v = true) :
    WordRange (s.setStack st) where
  __ := hs
  stack := hst

theorem pushWord (hs : WordRange s) {v : Word} (hv : isWordValue v = true) : WordRange (s.pushWord v) :=
  hs.setStack (List.forall_mem_cons.2 ⟨hv, hs.stack⟩)

theorem deliver (hs : WordRange s) {c : Word} {rest : List Word} (h : ∀ v ∈ c :: rest, isWordValue v = true) :
    WordRange (s.deliver r c rest) :=
  have hrest : WordRange { s with input := rest, waiting := none } :=
    { hs with input := (List.forall_mem_cons.1 h).2 }
  (hrest.setReg (List.forall_mem_cons.1 h).1).advance 2

/-- In the range every operand that resolves has a value of the range. -/
theorem value (hs : WordRange s) {a : Operand} {v : Word} (h : s.value a = .ok v) : isWordValue v = true := by
  cases a with
  | literal n =>
    cases h
    have hn := n.isLt
    rw [isWordValue_iff, BitVec.toNat_setWidth]
    omega
  | register r => cases h; exact hs.regs r
  | invalid w => cases h

/-- A two-operand computation that stays in the range keeps the state there. -/
theorem after_binaryOp (hs : WordRange s) {f : Word → Word → Word} {a b c : Operand}
    (hf : ∀ v w, isWordValue v = true → isWordValue w = true → isWordValue (f v w) = true)
    (h : binaryOp f a b c s = .next t) : WordRange t := by
  obtain ⟨r, v, w, -, hv, hw, rfl⟩ | ⟨e, rfl⟩ := binaryOp_next h
  · exact (hs.setReg (hf v w (hs.value hv) (hs.value hw))).advance 4
  · exact hs.raise e

/-- A directive whose line is in the range keeps the state there. -/
theorem after_directive (hs : WordRange s) {d : Directive} (hd : lineInWordRange (.directive d) = true) :
    WordRange (applyDirective d s) := by
  cases d with
  | wmem a v => simp only [applyDirective]; split <;> exact hs.congr rfl rfl rfl rfl rfl
  | wreg q v =>
    simp only [applyDirective]
    split
    · exact hs.setReg (isWordValue_ofNat (of_decide_eq_true hd))
    · exact hs
  | debug => exact hs.congr rfl rfl rfl rfl rfl
  | malformed => exact hs

theorem after_directives (hs : WordRange s) {ds : List Directive}
    (hds : ∀ d ∈ ds, lineInWordRange (.directive d) = true) : WordRange (applyDirectives ds s) := by
  induction ds generalizing s with
  | nil => exact hs
  | cons d ds ih =>
    obtain ⟨hd, hds⟩ := List.forall_mem_cons.1 hds
    exact ih (hs.after_directive hd) hds

/-- The lines of a state in the range: directives ahead of a line, its codes, and the lines behind it. -/
theorem lines_split (hs : WordRange s) {ds : List Directive} {cs : List Word} {ls : List InputLine}
    (hl : s.lines = ds.map .directive ++ .text cs :: ls) :
    (∀ d ∈ ds, lineInWordRange (.directive d) = true) ∧ (∀ v ∈ cs, isWordValue v = true) ∧
      ∀ l ∈ ls, lineInWordRange l = true := by
  have h := hs.lines
  rw [hl, List.forall_mem_append, List.forall_mem_map, List.forall_mem_cons] at h
  obtain ⟨hds, hcs, hls⟩ := h
  exact ⟨hds, List.all_eq_true.1 hcs, hls⟩

theorem after_serveInput (hs : WordRange s) (h : serveInput r s = .next t) : WordRange t := by
  obtain ⟨c, rest, hin, rfl⟩ | ⟨ds, cs, ls, c, rest, -, hl, hcodes, rfl⟩ := serveInput_next h
  · exact hs.deliver (hin ▸ hs.input)
  · obtain ⟨hds, hcs, hls⟩ := hs.lines_split hl
    have hpulled : WordRange { applyDirectives ds s with lines := ls } :=
      { hs.after_directives hds with lines := hls }
    refine hpulled.deliver ?_
    rw [← hcodes, List.forall_mem_append, List.forall_mem_singleton]
    exact ⟨hcs, hs.lineTerm⟩

/-- The ten instructions that compute a word for their destination keep the range (44_alu.md R102). -/
theorem after_exec_of_dest (hs : WordRange s) (h : exec i s = .next t)
    (hd : (operandRoles i).head? = some (.dest, .register q)) (hp : ∀ a, i ≠ .pop a) (hi : ∀ a, i ≠ .input a)
    (hrmem : ∀ a b ea, i = .rmem a b → s.value b = .ok ea → (s.mem.read ea.toNat).toNat ≤ 32767) :
    WordRange t := by
  cases i with
  | pop a => exact absurd rfl (hp a)
  | input a => exact absurd rfl (hi a)
  | eq a b c => exact hs.after_binaryOp (fun _ _ _ _ => isWordValue_truthWord _) h
  | gt a b c => exact hs.after_binaryOp (fun _ _ _ _ => isWordValue_truthWord _) h
  | add a b c => exact hs.after_binaryOp (fun _ _ _ _ => isWordValue_ofNat (Nat.mod_lt _ (by decide))) h
  | mult a b c => exact hs.after_binaryOp (fun _ _ _ _ => isWordValue_ofNat (Nat.mod_lt _ (by decide))) h
  | and a b c => exact hs.after_binaryOp (fun _ _ hv _ => isWordValue_and hv) h
  | or a b c => exact hs.after_binaryOp (fun _ _ hv hw => isWordValue_or hv hw) h
  | mod a b c =>
    obtain ⟨r, v, w, -, hv, -, hk⟩ | ⟨e, rfl⟩ := withDVV_next h
    · split at hk
      · cases hk; exact hs.raise _
      · cases hk; exact (hs.setReg (isWordValue_modWord (hs.value hv))).advance 4
    · exact hs.raise e
  | set a b =>
    obtain ⟨r, v, -, hv, hk⟩ | ⟨e, rfl⟩ := withDV_next h
    · cases hk; exact (hs.setReg (hs.value hv)).advance 3
    · exact hs.raise e
  | not a b =>
    obtain ⟨r, v, -, -, hk⟩ | ⟨e, rfl⟩ := withDV_next h
    · cases hk; exact (hs.setReg (isWordValue_notWord v)).advance 3
    · exact hs.raise e
  | rmem a b =>
    obtain ⟨r, ea, -, hea, hk⟩ | ⟨e, rfl⟩ := withDV_next h
    · have hcell : isWordValue (s.mem.read ea.toNat) = true :=
        isWordValue_iff.2 (Nat.lt_succ_of_le (hrmem a b ea rfl hea))
      simp only [State.memRead] at hk
      split at hk
      · next v hv => split at hv <;> cases hv; cases hk; exact (hs.setReg hcell).advance 3
      · cases hk; exact hs.raise _
    · exact hs.raise e
  | _ => cases hd

/-- Every instruction keeps the range, but for an `rmem` of a larger cell and a `call` at the end of memory. -/
theorem after_exec (hs : WordRange s) (h : exec i s = .next t)
    (hrmem : ∀ a b ea, i = .rmem a b → s.value b = .ok ea → (s.mem.read ea.toNat).toNat ≤ 32767)
    (hcall : ∀ a, i = .call a → s.pc.toNat + 2 ≤ 32767) : WordRange t := by
  cases exec_effect h with
  | wrote _ _ d v hd hp hi => exact hs.after_exec_of_dest h hd hp hi hrmem
  | pushed a _ v hv => exact (hs.pushWord (hs.value hv)).advance 2
  | popped _ d v st hst =>
    obtain ⟨hv, hrest⟩ := List.forall_mem_cons.1 (hst ▸ hs.stack)
    exact ((hs.setStack hrest).setReg hv).advance 2
  | called a _ v =>
    have hpc : isWordValue (s.pc + 2) = true := by
      have := hcall a rfl
      rw [isWordValue_iff, BitVec.toNat_add]
      exact (Nat.mod_le _ _).trans_lt (Nat.lt_succ_of_le this)
    exact (hs.pushWord hpc).setPc v
  | returned _ v st hst => exact (hs.setStack (List.forall_mem_cons.1 (hst ▸ hs.stack)).2).setPc v
  | served _ _ r hserve => exact hs.after_serveInput hserve
  | _ => exact hs.congr rfl rfl rfl rfl rfl

end WordRange

/-- Every cell that reads otherwise in `t` than in `s` holds a value of the Word range in `t`. -/
def StoresWords (s t : State) : Prop :=
  ∀ x, t.mem.read x ≠ s.mem.read x → isWordValue (t.mem.read x) = true

namespace StoresWords

theorem of_mem_eq (h : t.mem = s.mem) : StoresWords s t := fun x hx => absurd (by rw [h]) hx

theorem trans (h₁ : StoresWords s t) (h₂ : StoresWords t u) : StoresWords s u := by
  intro x hx
  by_cases hu : u.mem.read x = t.mem.read x
  · rw [hu] at hx ⊢
    exact h₁ x hx
  · exact h₂ x hu

theorem of_setCell (hm : s.mem.wf = true) (a : Nat) {v : Word} (hv : isWordValue v = true) :
    StoresWords s (s.setCell a v) := by
  intro x hx
  obtain rfl : x = a := by
    by_contra hne
    exact hx (Memory.read_write_ne s.mem v hne)
  rwa [State.setCell_mem, Memory.read_write_same x v hm]

theorem of_directive (hm : s.mem.wf = true) {d : Directive} (hd : lineInWordRange (.directive d) = true) :
    StoresWords s (applyDirective d s) := by
  cases d with
  | wmem a v =>
    simp only [applyDirective]
    split
    · exact of_setCell hm a (isWordValue_ofNat (of_decide_eq_true hd))
    · exact of_mem_eq rfl
  | wreg q v => simp only [applyDirective]; split <;> exact of_mem_eq rfl
  | debug => exact of_mem_eq rfl
  | malformed => exact of_mem_eq rfl

theorem of_directives (hm : s.mem.wf = true) {ds : List Directive}
    (hds : ∀ d ∈ ds, lineInWordRange (.directive d) = true) : StoresWords s (applyDirectives ds s) := by
  induction ds generalizing s with
  | nil => exact of_mem_eq rfl
  | cons d ds ih =>
    obtain ⟨hd, hds⟩ := List.forall_mem_cons.1 hds
    exact (of_directive hm hd).trans (ih (applyDirective_wf d hm) hds)

theorem of_exec (hm : s.mem.wf = true) (hs : WordRange s) (h : exec i s = .next t) : StoresWords s t := by
  cases exec_effect h with
  | stored a b _ ea v _ hv => exact of_setCell hm ea.toNat (hs.value hv)
  | served _ _ r hserve =>
    obtain ⟨c, rest, -, rfl⟩ | ⟨ds, cs, ls, c, rest, -, hl, -, rfl⟩ := serveInput_next hserve
    · exact of_mem_eq rfl
    · exact of_directives hm (hs.lines_split hl).1
  | _ => exact of_mem_eq rfl

end StoresWords

/-- Settles O51: what an instruction writes to a register, the stack, the queue or a cell is in the Word range. -/
theorem wordRangeIsKept : Obligations.WordRangeIsKept := by
  intro i s t hm hrange h hrmem hcall
  have hs := inWordRange_iff.1 hrange
  refine ⟨inWordRange_iff.2 (hs.after_exec h hrmem hcall), fun x hx => ?_⟩
  exact Nat.le_of_lt_succ (isWordValue_iff.1 (StoresWords.of_exec hm hs h x hx))

end Sys2Proof.Machine
end

section
/-! SUPPORT. The statements about program memory (20_memory.md): what can change a cell, what a fetch sees of a stored
word, the canonical form, and the bytes of an image. -/

namespace Sys2Proof.Machine

variable {s t : State} {r : RegNum}

/-! ## What can change a cell -/

/-- A cell write changes no other cell. -/
theorem State.eq_of_read_setCell_ne {a x : Nat} {v : Word} (h : (s.setCell a v).mem.read x ≠ s.mem.read x) :
    x = a := by
  by_contra hx
  exact h (Memory.read_write_ne s.mem v hx)

/-- The service of an `in` changes a cell only by a `wmem` directive to it, ahead of the line it pulls. -/
theorem serveInput_read_ne {x : Nat} (h : serveInput r s = .next t) (hx : t.mem.read x ≠ s.mem.read x) :
    ∃ (ds : List Directive) (cs : List Word) (ls : List InputLine) (v : Nat),
      s.input = [] ∧ s.lines = ds.map .directive ++ .text cs :: ls ∧ .wmem x v ∈ ds := by
  obtain ⟨c, rest, -, rfl⟩ | ⟨ds, cs, ls, c, rest, hin, hl, -, rfl⟩ := serveInput_next h
  · exact absurd rfl hx
  · obtain ⟨d, hd, v, rfl⟩ := applyDirectives_ne (·.mem.read x) (∃ v, · = .wmem x v)
      (fun _ _ => applyDirective_read_ne) hx
    exact ⟨ds, cs, ls, v, hin, hl, hd⟩

/-- Settles O43: of the effects an instruction can have, a store writes its own cell, and the service of an `in` the
cells its directives name. -/
theorem memoryChangesOnlyByWmemOrDirective : Obligations.MemoryChangesOnlyByWmemOrDirective := by
  intro i s t x h hx
  cases exec_effect h with
  | stored a b _ ea v ha _ hea =>
    obtain rfl := State.eq_of_read_setCell_ne hx
    exact .inl ⟨a, b, ea, rfl, ha, rfl, Nat.le_of_lt_succ hea⟩
  | served _ _ r hserve =>
    obtain ⟨ds, cs, ls, v, hin, hl, hd⟩ := serveInput_read_ne hserve hx
    exact .inr ⟨r, ds, cs, ls, v, rfl, hin, hl, hd⟩
  | _ => exact absurd rfl hx

/-! ## A stored word is fetched -/

/-- An opcode word above 21 decodes to nothing, whatever follows it (30_encoding.md R52). -/
theorem decode_illegal {op : Word} (rest : List Word) (h : 22 ≤ op.toNat) :
    decode (op :: rest) = .error (.invalidOpcode op) := by
  simp only [decode]
  split
  case h_23 => rfl
  all_goals omega

/-- A fetch that finds an opcode word above 21 finds no instruction (30_encoding.md R58). -/
theorem fetch_illegal (hp : s.pc.toNat < Config.fetchLimit) (h : 22 ≤ (s.mem.read s.pc.toNat).toNat) :
    s.fetch = .illegal ⟨.invalidOpcode, s.mem.read s.pc.toNat⟩ := by
  simp only [State.fetch, maxCells]
  rw [if_neg (by omega), Memory.window_succ _ _ hp, decode_illegal _ h]
  rfl

/-- A fetch that finds no instruction aborts the step. -/
theorem step_of_illegal {c : Cause} (hr : s.run = .running) (hw : s.waiting = none) (hf : s.fetch = .illegal c) :
    step s = .next (s.raise c) := by
  simp only [step, hr, hw, hf]

/-- A `wmem` whose operands resolve stores the value in its cell and goes on (45_memory_access.md R106). -/
theorem exec_wmem {a b : Operand} {ea v : Word} (ha : s.value a = .ok ea) (hb : s.value b = .ok v)
    (hea : ea.toNat < Config.memWords) : exec (.wmem a b) s = .next ((s.setCell ea.toNat v).advance 3) := by
  simp only [exec, execWmem, withVV_ok ha hb, State.memWrite, if_pos hea]

/-- After such a `wmem` the cell reads as the value stored (20_memory.md R36). -/
theorem read_after_wmem {a b : Operand} {ea v : Word} (hm : s.mem.wf = true) (ha : s.value a = .ok ea)
    (hb : s.value b = .ok v) (hea : ea.toNat < Config.memWords) (h : exec (.wmem a b) s = .next t) :
    t.mem.read ea.toNat = v := by
  rw [exec_wmem ha hb hea] at h
  cases h
  exact Memory.read_write_same _ v hm

/-- Settles O48: the cell holds the stored word, and a fetch window is made of cells of memory. -/
theorem storedWordIsFetchedNext : Obligations.StoredWordIsFetchedNext := by
  intro s t a b ea v hm ha hb hea h
  have hlt : ea.toNat < Config.memWords := Nat.lt_succ_of_le hea
  have hcell := read_after_wmem hm (value_of_val ha) (value_of_val hb) hlt h
  refine ⟨fun p k hk hpk => ?_, fun hr hw hpc hv => ?_⟩
  · rw [Memory.window_getElem? _ hk (hpk ▸ hlt), hpk, hcell]
  · subst hpc hcell
    exact step_of_illegal hr hw (fetch_illegal hlt hv)

/-! ## The canonical form -/

namespace Memory

/-- A canonical memory lists nothing below its first address, so a cell that does not read as unlisted lies at or
above it. -/
theorem head_le_of_read_ne {lo k a : Nat} {v : Word} {m : Memory} (h : wfFrom lo ((k, v) :: m) = true)
    (ha : Memory.read ((k, v) :: m) a ≠ unlisted) : k ≤ a := by
  obtain ⟨-, hrest⟩ := wfFrom_cons.1 h
  by_contra hlt
  exact ha (read_of_lt (wfFrom_cons.2 ⟨le_refl k, hrest⟩) (not_le.1 hlt))

/-- The first listed cell of a canonical memory does not read as unlisted. -/
theorem read_head_ne {lo k : Nat} {v : Word} {m : Memory} (h : wfFrom lo ((k, v) :: m) = true) :
    Memory.read ((k, v) :: m) k ≠ unlisted := by
  obtain ⟨-, -, hv, -⟩ := wfFrom_cons.1 h
  rwa [read_cons, if_pos rfl]

/-- The cells behind the first listed one read alike when the whole memories do. -/
theorem read_tail_eq {lo lo' k : Nat} {v w : Word} {m n : Memory} (hm : wfFrom lo ((k, v) :: m) = true)
    (hn : wfFrom lo' ((k, w) :: n) = true)
    (h : ∀ x, Memory.read ((k, v) :: m) x = Memory.read ((k, w) :: n) x) (x : Nat) : m.read x = n.read x := by
  obtain ⟨-, -, -, hm⟩ := wfFrom_cons.1 hm
  obtain ⟨-, -, -, hn⟩ := wfFrom_cons.1 hn
  by_cases hx : k = x
  · rw [read_of_lt hm (by omega), read_of_lt hn (by omega)]
  · simpa only [read_cons, if_neg hx] using h x

/-- Canonical memories that read alike list the same cells: their first addresses agree, because each is the least
address that does not read as unlisted. -/
theorem eq_of_read_eq {lo lo' : Nat} {m n : Memory} (hm : wfFrom lo m = true) (hn : wfFrom lo' n = true)
    (h : ∀ x, m.read x = n.read x) : m = n := by
  induction m generalizing lo lo' n with
  | nil =>
    cases n with
    | nil => rfl
    | cons q n => exact absurd (h q.1).symm (read_head_ne hn)
  | cons p m ih =>
    obtain ⟨k, v⟩ := p
    cases n with
    | nil => exact absurd (h k) (read_head_ne hm)
    | cons q n =>
      obtain ⟨l, w⟩ := q
      have hkl : k ≤ l := head_le_of_read_ne hm (h l ▸ read_head_ne hn)
      have hlk : l ≤ k := head_le_of_read_ne hn (h k ▸ read_head_ne hm)
      obtain rfl := hkl.antisymm hlk
      have hvw : v = w := by simpa only [read_cons, if_pos] using h k
      obtain ⟨-, -, -, hm'⟩ := wfFrom_cons.1 hm
      obtain ⟨-, -, -, hn'⟩ := wfFrom_cons.1 hn
      rw [hvw, ih hm' hn' (read_tail_eq hm hn h)]

end Memory

/-- Settles O52: the canonical form is the one from address 0 upward. -/
theorem memoriesThatReadAlikeAreEqual : Obligations.MemoriesThatReadAlikeAreEqual :=
  fun _ _ hm hn h => Memory.eq_of_read_eq hm hn h

/-! ## The bytes of an image -/

/-- A word's low byte comes first (20_memory.md R34), and two bytes fill a word. -/
theorem toNat_wordOfBytes (lo hi : BitVec 8) :
    (BitVec.ofNat 16 (lo.toNat + 256 * hi.toNat)).toNat = lo.toNat + 256 * hi.toNat := by
  have hlo := lo.isLt
  have hhi := hi.isLt
  rw [BitVec.toNat_ofNat]
  omega

/-- An odd number of bytes leaves a partial word at the end. -/
theorem wordsOfBytes_odd {bytes : List (BitVec 8)} (h : bytes.length % 2 = 1) :
    wordsOfBytes bytes = .error .trailingPartialWord := by
  induction bytes using List.twoStepInduction with
  | nil => cases h
  | singleton => rfl
  | cons_cons lo hi bytes ih =>
    simp only [List.length_cons] at h
    simp only [wordsOfBytes, ih (by omega)]

/-- An even number of bytes is half as many words, each of its two bytes, the low one first. -/
theorem wordsOfBytes_even {bytes : List (BitVec 8)} (h : bytes.length % 2 = 0) :
    ∃ ws, wordsOfBytes bytes = .ok ws ∧ 2 * ws.length = bytes.length ∧
      ∀ k (_ : 2 * k + 1 < bytes.length) (_ : k < ws.length),
        ws[k].toNat = bytes[2 * k].toNat + 256 * bytes[2 * k + 1].toNat := by
  induction bytes using List.twoStepInduction with
  | nil => exact ⟨[], rfl, rfl, fun _ h => absurd h (Nat.not_lt_zero _)⟩
  | singleton => cases h
  | cons_cons lo hi bytes ih =>
    simp only [List.length_cons] at h
    obtain ⟨ws, hws, hlen, hword⟩ := ih (by omega)
    refine ⟨BitVec.ofNat 16 (lo.toNat + 256 * hi.toNat) :: ws, by simp only [wordsOfBytes, hws],
      by simp only [List.length_cons]; omega, fun k hk hk' => ?_⟩
    cases k with
    | zero => exact toNat_wordOfBytes lo hi
    | succ k =>
      simp only [List.length_cons] at hk hk'
      exact hword k (by omega) (by omega)

/-- The loader goes on with the words of a stream that has no partial word. -/
theorem boot_of_words {bytes : List (BitVec 8)} {ws : List Word} (h : wordsOfBytes bytes = .ok ws) :
    boot bytes = if ws.length ≤ Config.memWords then .ok (State.resetWith ws) else .error .tooLong := by
  simp only [boot, h]

/-- Settles O54: the words of the stream, and the loader's check of their number. -/
theorem imageBytesAreLittleEndian : Obligations.ImageBytesAreLittleEndian := by
  refine ⟨fun bytes h => ?_, fun bytes h hlong => ?_, fun bytes h hfits => ?_⟩
  · simp only [boot, wordsOfBytes_odd h]
  · obtain ⟨ws, hws, hlen, -⟩ := wordsOfBytes_even h
    have hover : ¬ ws.length ≤ 32768 := by omega
    rw [boot_of_words hws, if_neg hover]
  · obtain ⟨ws, hws, hlen, hword⟩ := wordsOfBytes_even h
    have hroom : ws.length ≤ 32768 := by omega
    exact ⟨ws, by rw [boot_of_words hws, if_pos hroom], hlen, hword⟩

end Sys2Proof.Machine
end

section
/-! SUPPORT. The statements about the encoding (30_encoding.md): operand words and their resolution, the decoder and the
encoder, and the step that fetches, decodes and executes. -/

namespace Sys2Proof

/-! ## The classes of an operand word -/

namespace Operand

variable {w : Word}

theorem ofWord_eq_literal (h : w.toNat ≤ 32767) : ofWord w = .literal (w.setWidth 15) :=
  if_pos (Nat.lt_succ_of_le h)

theorem ofWord_eq_register (hlo : 32768 ≤ w.toNat) (hhi : w.toNat ≤ 32775) :
    ofWord w = .register (Fin.ofNat 8 (w.toNat - 32768)) := by
  have hnum : Fin.ofNat 8 w.toNat = Fin.ofNat 8 (w.toNat - 32768) := by
    apply Fin.ext
    simp only [Fin.val_ofNat]
    omega
  rw [ofWord, if_neg (not_lt.2 hlo), if_pos hhi, hnum]

theorem ofWord_eq_invalid (h : 32776 ≤ w.toNat) : ofWord w = .invalid w := by
  rw [ofWord, if_neg (by simp only [Config.regBase]; omega), if_neg (by simp only [Config.maxOperand]; omega)]

end Operand

/-! ## The operand cells of an instruction -/

section Tails

variable {a b c : Operand} {cells : List Word} {w : Word}

/-- Words that spell well-formed operands are read back as these operands. -/
theorem operands1_encode (mk : Operand → Instr) (h : a.wf = true) (rest : List Word) :
    operands1 mk (a.encode :: rest) = .ok (mk a, rest) := by
  rw [operands1, Operand.ofWord_encode h]

theorem operands2_encode (mk : Operand → Operand → Instr) (h : (a.wf && b.wf) = true) (rest : List Word) :
    operands2 mk (a.encode :: b.encode :: rest) = .ok (mk a b, rest) := by
  obtain ⟨ha, hb⟩ := Bool.and_eq_true_iff.1 h
  rw [operands2, Operand.ofWord_encode ha, Operand.ofWord_encode hb]

theorem operands3_encode (mk : Operand → Operand → Operand → Instr) (h : (a.wf && b.wf && c.wf) = true)
    (rest : List Word) : operands3 mk (a.encode :: b.encode :: c.encode :: rest) = .ok (mk a b c, rest) := by
  obtain ⟨hab, hc⟩ := Bool.and_eq_true_iff.1 h
  obtain ⟨ha, hb⟩ := Bool.and_eq_true_iff.1 hab
  rw [operands3, Operand.ofWord_encode ha, Operand.ofWord_encode hb, Operand.ofWord_encode hc]

/-- Where operand cells are missing, the first one that is not there is reported (30_encoding.md R60 step 5). -/
theorem operands1_short (mk : Operand → Instr) (h : cells.length < 1) :
    operands1 mk cells = .error (.missingCell (cells.length + 1)) := by
  rcases cells with _ | ⟨a, t⟩
  · rfl
  · simp only [List.length_cons] at h; omega

theorem operands2_short (mk : Operand → Operand → Instr) (h : cells.length < 2) :
    operands2 mk cells = .error (.missingCell (cells.length + 1)) := by
  rcases cells with _ | ⟨a, _ | ⟨b, t⟩⟩
  · rfl
  · rfl
  · simp only [List.length_cons] at h; omega

theorem operands3_short (mk : Operand → Operand → Operand → Instr) (h : cells.length < 3) :
    operands3 mk cells = .error (.missingCell (cells.length + 1)) := by
  rcases cells with _ | ⟨a, _ | ⟨b, _ | ⟨c, t⟩⟩⟩
  · rfl
  · rfl
  · rfl
  · simp only [List.length_cons] at h; omega

/-- Operand cells never make an opcode invalid. -/
theorem operands1_ne_invalidOpcode {mk : Operand → Instr} : operands1 mk cells ≠ .error (.invalidOpcode w) := by
  unfold operands1; split <;> simp

theorem operands2_ne_invalidOpcode {mk : Operand → Operand → Instr} :
    operands2 mk cells ≠ .error (.invalidOpcode w) := by
  unfold operands2; split <;> simp

theorem operands3_ne_invalidOpcode {mk : Operand → Operand → Operand → Instr} :
    operands3 mk cells ≠ .error (.invalidOpcode w) := by
  unfold operands3; split <;> simp

end Tails

/-! ## Decoding and encoding -/

variable {i : Instr} {op : Word} {cells rest : List Word}

theorem decode_encode (h : i.wf = true) (rest : List Word) : decode (encode i ++ rest) = .ok (i, rest) := by
  cases i with
  | halt | ret | noop => rfl
  | push | pop | jmp | call | out | input => exact operands1_encode _ h rest
  | set | jt | jf | not | rmem | wmem => exact operands2_encode _ h rest
  | eq | gt | add | mult | mod | and | or => exact operands3_encode _ h rest

/-- Every instruction has its opcode cell (30_encoding.md R50). -/
theorem length_encode_pos (i : Instr) : 0 < (encode i).length := by
  cases i <;> exact Nat.succ_pos _

/-- The cells spell the well-formed instruction `i`, with `rest` left over. -/
def Spells (cells : List Word) (i : Instr) (rest : List Word) : Prop :=
  i.wf = true ∧ cells = encode i ++ rest

namespace Spells

variable {n : Nat}

/-- An opcode word and its operand cells spell what they are read as, if the encoder writes that opcode word. -/
theorem of_operands1 {mk : Operand → Instr} (h : operands1 mk cells = .ok (i, rest)) (hop : op.toNat = n)
    (hwf : ∀ a, (mk a).wf = a.wf) (henc : ∀ a, encode (mk a) = [BitVec.ofNat 16 n, a.encode]) :
    Spells (op :: cells) i rest := by
  obtain ⟨a, rfl, rfl⟩ := operands1_ok h
  subst hop
  exact ⟨by simp [hwf], by simp [henc]⟩

theorem of_operands2 {mk : Operand → Operand → Instr} (h : operands2 mk cells = .ok (i, rest)) (hop : op.toNat = n)
    (hwf : ∀ a b, (mk a b).wf = (a.wf && b.wf))
    (henc : ∀ a b, encode (mk a b) = [BitVec.ofNat 16 n, a.encode, b.encode]) :
    Spells (op :: cells) i rest := by
  obtain ⟨a, b, rfl, rfl⟩ := operands2_ok h
  subst hop
  exact ⟨by simp [hwf], by simp [henc]⟩

theorem of_operands3 {mk : Operand → Operand → Operand → Instr} (h : operands3 mk cells = .ok (i, rest))
    (hop : op.toNat = n) (hwf : ∀ a b c, (mk a b c).wf = (a.wf && b.wf && c.wf))
    (henc : ∀ a b c, encode (mk a b c) = [BitVec.ofNat 16 n, a.encode, b.encode, c.encode]) :
    Spells (op :: cells) i rest := by
  obtain ⟨a, b, c, rfl, rfl⟩ := operands3_ok h
  subst hop
  exact ⟨by simp [hwf], by simp [henc]⟩

/-- An opcode word without operands spells its instruction. -/
theorem of_opcode (hop : op.toNat = n) (hwf : i.wf = true) (henc : encode i = [BitVec.ofNat 16 n]) :
    Spells (op :: rest) i rest := by
  subst hop
  exact ⟨hwf, by simp [henc]⟩

/-- Cells that decode spell what they decode to. -/
theorem of_decode (h : decode cells = .ok (i, rest)) : Spells cells i rest := by
  rcases cells with _ | ⟨op, tail⟩
  · cases h
  simp only [decode] at h
  split at h
  case h_1 hop | h_19 hop | h_22 hop => cases h; exact of_opcode hop rfl rfl
  case h_3 hop | h_4 hop | h_7 hop | h_18 hop | h_20 hop | h_21 hop =>
    exact of_operands1 h hop (fun _ => rfl) (fun _ => rfl)
  case h_2 hop | h_8 hop | h_9 hop | h_15 hop | h_16 hop | h_17 hop =>
    exact of_operands2 h hop (fun _ _ => rfl) (fun _ _ => rfl)
  case h_5 hop | h_6 hop | h_10 hop | h_11 hop | h_12 hop | h_13 hop | h_14 hop =>
    exact of_operands3 h hop (fun _ _ _ => rfl) (fun _ _ _ => rfl)
  case h_23 => cases h

end Spells

/-- Only an opcode word above 21 is invalid (30_encoding.md R52). -/
theorem le_of_decode_invalidOpcode {w : Word} (h : decode (op :: rest) = .error (.invalidOpcode w)) :
    22 ≤ op.toNat := by
  simp only [decode] at h
  split at h
  case h_1 | h_19 | h_22 => cases h
  case h_3 | h_4 | h_7 | h_18 | h_20 | h_21 => exact absurd h operands1_ne_invalidOpcode
  case h_2 | h_8 | h_9 | h_15 | h_16 | h_17 => exact absurd h operands2_ne_invalidOpcode
  case h_5 | h_6 | h_10 | h_11 | h_12 | h_13 | h_14 => exact absurd h operands3_ne_invalidOpcode
  case h_23 => simp only [imp_false] at *; omega

/-- Behind the opcode word of an instruction, too few cells are reported by the first one missing. -/
theorem decode_short (hop : (encode i).head? = some op) (h : cells.length + 1 < i.length) :
    decode (op :: cells) = .error (.missingCell (cells.length + 1)) := by
  cases i with
  | halt | ret | noop => exact absurd h (by simp [Instr.length, encode])
  | push | pop | jmp | call | out | input => cases hop; exact operands1_short _ (Nat.lt_of_succ_lt_succ h)
  | set | jt | jf | not | rmem | wmem => cases hop; exact operands2_short _ (Nat.lt_of_succ_lt_succ h)
  | eq | gt | add | mult | mod | and | or => cases hop; exact operands3_short _ (Nat.lt_of_succ_lt_succ h)

/-- Settles O25: `decode_encode`, by the format of each instruction. -/
theorem decodeReadsBackEncode : Obligations.DecodeReadsBackEncode :=
  fun _ rest h => decode_encode h rest

/-- Settles O26: `Spells.of_decode`, by the opcode word. -/
theorem encodeWritesBackDecode : Obligations.EncodeWritesBackDecode :=
  fun _ _ _ h => Spells.of_decode h

/-- Settles O27: the decoder compares the whole opcode word, and operand cells report no opcode. -/
theorem opcodeIsTheWholeCell : Obligations.OpcodeIsTheWholeCell :=
  fun _ rest => ⟨le_of_decode_invalidOpcode, Machine.decode_illegal rest⟩

/-- Settles O28: the decoder run on each sequence. -/
theorem spelledWordsDecode : Obligations.SpelledWordsDecode :=
  ⟨rfl, rfl, rfl, rfl, rfl, rfl⟩

namespace Machine

variable {s t : State} {r : RegNum}

/-! ## Operand resolution -/

/-- A literal is its own value. -/
theorem value_literal (v : BitVec 15) : s.value (.literal v) = .ok (Operand.literal v).encode := rfl

/-- What is no register selector is no destination, and its word is recorded (30_encoding.md R55). -/
theorem destination_error {a : Operand} (h : ∀ r, a ≠ .register r) :
    destination a = .error ⟨.invalidAddress, a.encode⟩ := by
  cases a with
  | register r => exact absurd rfl (h r)
  | literal v => rfl
  | invalid w => rfl

/-- Settles O23: each class of operand word has its own resolution. -/
theorem valueResolutionFollowsTheWord : Obligations.ValueResolutionFollowsTheWord := by
  refine fun s w => ⟨fun h => ?_, fun hlo hhi => ?_, fun h => ?_⟩
  · rw [Operand.ofWord_eq_literal h, value_literal, ← Operand.ofWord_eq_literal h, Operand.encode_ofWord]
  · rw [Operand.ofWord_eq_register hlo hhi]; rfl
  · rw [Operand.ofWord_eq_invalid h]; rfl

/-- Settles O24: of the three classes of operand word only a register selector is a destination. -/
theorem destinationResolutionFollowsTheWord : Obligations.DestinationResolutionFollowsTheWord := by
  refine fun w => ⟨fun hlo hhi => by rw [Operand.ofWord_eq_register hlo hhi]; rfl, fun h => ?_⟩
  have hne : ∀ r, Operand.ofWord w ≠ .register r := by
    obtain h | h := h
    · simp [Operand.ofWord_eq_literal h]
    · simp [Operand.ofWord_eq_invalid h]
  rw [destination_error hne, Operand.encode_ofWord]

/-! ## What a fetch finds, and the step it begins -/

/-- A well-formed instruction whose cells all exist and stand at `pc` is fetched. -/
theorem fetch_of_encoding (hwf : i.wf = true) (hend : s.pc.toNat + (encode i).length ≤ Config.memWords)
    (hcells : ∀ k (h : k < (encode i).length), s.mem.read (s.pc.toNat + k) = (encode i)[k]) :
    s.fetch = .instr i := by
  have hpos := length_encode_pos i
  obtain ⟨rest, hwin⟩ := s.mem.window_eq_append i.length_le hend hcells
  exact fetch_of_decode (show s.pc.toNat < 32768 by simp only [Config.memWords] at hend; omega)
    (hwin ▸ decode_encode hwf rest)

/-- Settles O29: such an instruction is fetched, and the step runs what is fetched. -/
theorem stepRunsTheDecodedInstruction : Obligations.StepRunsTheDecodedInstruction :=
  fun _ _ hr hw hwf hend hcells => step_of_fetch hr hw (fetch_of_encoding hwf hend hcells)

/-- A fetch beyond memory halts the step. -/
theorem step_of_outOfRange (hr : s.run = .running) (hw : s.waiting = none) (hf : s.fetch = .outOfRange) :
    step s = .next (s.halt .outOfRange) := by
  simp only [step, hr, hw, hf]

/-- Settles O31: the fetch finds `pc` out of range, and the step halts. -/
theorem fetchBeyondMemoryHalts : Obligations.FetchBeyondMemoryHalts := by
  intro s hr hw hpc
  have hf : s.fetch = .outOfRange := if_pos (Nat.lt_succ_of_le hpc)
  exact step_of_outOfRange hr hw hf

/-- Settles O32: the fetch finds the illegal opcode word, and the step aborts. -/
theorem illegalOpcodeAborts : Obligations.IllegalOpcodeAborts :=
  fun _ hr hw hpc hop => step_of_illegal hr hw (fetch_illegal (Nat.lt_succ_of_le hpc) hop)

/-- An opcode word whose operand cells run past memory is fetched as the missing cell 32768 (20_memory.md R33). -/
theorem fetch_beyond_memory (hpc : s.pc.toNat ≤ 32767) (hop : (encode i).head? = some (s.mem.read s.pc.toNat))
    (hend : 32768 < s.pc.toNat + i.length) : s.fetch = .illegal ⟨.invalidAddress, 32768⟩ := by
  have hlt : s.pc.toNat < Config.memWords := Nat.lt_succ_of_le hpc
  have hmax : i.length ≤ 4 := i.length_le
  have hlen : (s.mem.window (s.pc.toNat + 1) 3).length + 1 = 32768 - s.pc.toNat := by
    rw [Memory.length_window, Config.memWords]
    omega
  have hdec := decode_short hop (cells := s.mem.window (s.pc.toNat + 1) 3) (by omega)
  have haddr : s.pc + BitVec.ofNat 16 (32768 - s.pc.toNat) = 32768 := by
    apply BitVec.eq_of_toNat_eq
    rw [BitVec.toNat_add, BitVec.toNat_ofNat, show (32768 : Word).toNat = 32768 from rfl]
    omega
  simp only [State.fetch, maxCells]
  rw [if_neg (not_lt.2 hlt), Memory.window_succ _ _ hlt, hdec, hlen]
  simp only [decodeCause, haddr]

/-- Settles O33: the fetch finds the missing cell, and the step aborts. -/
theorem operandCellBeyondMemoryAborts : Obligations.OperandCellBeyondMemoryAborts :=
  fun _ _ hr hw hpc hop hend => step_of_illegal hr hw (fetch_beyond_memory hpc hop hend)

/-! ## The trace flag -/

/-- What changes the trace flag: a `.debug` directive that an `in` consumes. -/
theorem exec_traceOn_ne (h : exec i s = .next t) (hne : t.traceOn ≠ s.traceOn) :
    ∃ r, i = .input (.register r) ∧ s.input = [] ∧ .directive .debug ∈ s.lines := by
  cases exec_effect h with
  | served _ _ r hserve =>
    obtain ⟨c, rest, -, rfl⟩ | ⟨ds, cs, ls, c, rest, hin, hl, -, rfl⟩ := serveInput_next hserve
    · exact absurd rfl hne
    · obtain ⟨d, hd, rfl⟩ := applyDirectives_ne (·.traceOn) (· = .debug)
        (fun _ _ => applyDirective_traceOn_ne) hne
      exact ⟨r, rfl, hin, by simp [hl, hd]⟩
  | _ => exact absurd rfl hne

/-- The service of an `in` emits no trace record and advances over its two cells. -/
theorem serveInput_traceLog_and_pc (h : serveInput r s = .next t) : t.traceLog = s.traceLog ∧ t.pc = s.pc + 2 := by
  obtain ⟨c, rest, -, rfl⟩ | ⟨ds, cs, ls, c, rest, -, -, -, rfl⟩ := serveInput_next h
  · exact ⟨rfl, rfl⟩
  · obtain ⟨hpc, -, -, -, -, -, -, -, hlog⟩ := applyDirectives_frame ds s
    exact ⟨hlog, congrArg (· + 2) hpc⟩

/-- No instruction emits a trace record of its own. -/
theorem exec_traceLog (h : exec i s = .next t) : t.traceLog = s.traceLog := by
  cases exec_effect h with
  | served _ _ _ hserve => exact (serveInput_traceLog_and_pc hserve).1
  | _ => rfl

/-- Settles O30: a clear flag emits no record before, and only a `.debug` directive sets it for a record after. -/
theorem untracedStepIsExec : Obligations.UntracedStepIsExec := by
  intro s i hr hw htr hf
  have hbefore : recordBefore i s = [] := by simp only [recordBefore, htr]; rfl
  rw [step_of_fetch hr hw hf]
  by_cases hset : ∃ u, exec i s = .next u ∧ u.traceOn = true
  · obtain ⟨u, hu, hon⟩ := hset
    obtain ⟨r, hi, hin, hdebug⟩ := exec_traceOn_ne hu (by rw [hon, htr]; decide)
    refine .inr ⟨r, u, hi, hin, hdebug, hu, hon, ?_⟩
    simp only [traceInstr, hu, Result.traced, hbefore, recordAfter, hon, exec_traceLog hu]
    rfl
  · refine .inl (traced_eq_self fun u hu => ?_)
    have hoff : ¬ u.traceOn = true := fun hon => hset ⟨u, hu, hon⟩
    rw [hbefore, recordAfter, if_neg hoff]
    rfl

/-! ## The advance of `pc` -/

/-- Settles O47: the effects that complete an instruction advance `pc` by its length, but for those of the control
transfers; the others end the run. -/
theorem completedInstructionAdvancesByItsLength : Obligations.CompletedInstructionAdvancesByItsLength := by
  intro i s t hs h ht hctl
  cases exec_effect h with
  | raised | halted | haltedEmpty => cases ht
  | jumped _ _ v hj =>
    obtain ⟨a, b, hj⟩ := hj
    obtain ⟨hjmp, hjt, hjf, -⟩ := hctl a b
    exact absurd hj (by simp [hjmp, hjt, hjf])
  | called a =>
    obtain ⟨-, -, -, hcall, -⟩ := hctl a a
    exact absurd rfl hcall
  | returned =>
    obtain ⟨-, -, -, -, hret⟩ := hctl (.literal 0) (.literal 0)
    exact absurd rfl hret
  | served _ _ _ hserve => exact (serveInput_traceLog_and_pc hserve).2
  | _ => rfl

/-! ## A placed instruction -/

/-- A longest instruction fits where cells are placed. -/
theorem placeAddr_add_le (s : State) : s.placeAddr + maxCells ≤ Config.memWords := by
  unfold State.placeAddr
  split
  · assumption
  · decide

/-- Cells placed where a longest instruction fits stand at `pc`. -/
theorem read_placeCells {cells : List Word} {k : Nat} (hm : s.mem.wf = true) (hlen : cells.length ≤ maxCells)
    (hk : k < cells.length) : (s.placeCells cells).mem.read (s.placeAddr + k) = cells[k] :=
  have hfits := placeAddr_add_le s
  Memory.read_writeAll hm hk (by omega)

theorem toNat_pc_placeCells (cells : List Word) : (s.placeCells cells).pc.toNat = s.placeAddr := by
  have hfits : s.placeAddr + 4 ≤ 32768 := placeAddr_add_le s
  change (BitVec.ofNat 16 s.placeAddr).toNat = _
  rw [BitVec.toNat_ofNat]
  omega

/-- An instruction spelled by placed cells is fetched. -/
theorem fetch_placeCells {cells rest : List Word} (hm : s.mem.wf = true) (hlen : cells.length ≤ maxCells)
    (h : decode cells = .ok (i, rest)) : (s.placeCells cells).fetch = .instr i := by
  obtain ⟨hwf, rfl⟩ := Spells.of_decode h
  have hfits := placeAddr_add_le s
  apply fetch_of_encoding hwf
  · rw [toNat_pc_placeCells]
    exact (Nat.add_le_add_left i.length_le _).trans hfits
  · intro k hk
    have hk' : k < (encode i ++ rest).length := by rw [List.length_append]; omega
    rw [toNat_pc_placeCells, read_placeCells hm hlen hk', List.getElem_append_left hk]

/-- What the decoder reads from the bits `w` it reads from their cells. -/
theorem decode_of_decodeTableWord {nbits w : Nat} (h : decodeTableWord nbits w = some i) :
    ∃ rest, decode (tableCells nbits w) = .ok (i, rest) := by
  simp only [decodeTableWord] at h
  split at h
  · next rest hd => cases h; exact ⟨rest, hd⟩
  · cases h

/-- Settles O55: placed cells are fetched, and the step runs what is fetched. -/
theorem placedInstructionRunsNext : Obligations.PlacedInstructionRunsNext := by
  intro s nbits w i hm h
  obtain ⟨rest, hd⟩ := decode_of_decodeTableWord h
  exact step_of_fetch rfl rfl (fetch_placeCells hm (List.length_map ..).le hd)

end Machine

end Sys2Proof
end

section
/-! SUPPORT. The statements about the system instructions `halt` and `noop` (40_system.md): their cells, and the one
state operation that each of them is. -/

namespace Sys2Proof.Machine

/-- `halt` is the graceful halt with the reason `Explicit` (R70). -/
theorem exec_halt (s : State) : exec .halt s = .next (s.halt .explicit) := rfl

/-- `noop` is the advance over its one cell (R71). -/
theorem exec_noop (s : State) : exec .noop s = .next (s.advance 1) := rfl

/-- Settles O1: the cell 0 is the encoding of `halt`, and a graceful halt changes the run state alone. -/
theorem haltEndsTheRunInPlace : Obligations.HaltEndsTheRunInPlace :=
  ⟨decode_encode (i := .halt) rfl, exec_halt⟩

/-- Settles O2: the cell 21 is the encoding of `noop`, and an advance changes `pc` alone. -/
theorem noopOnlyAdvances : Obligations.NoopOnlyAdvances :=
  ⟨decode_encode (i := .noop) rfl, exec_noop⟩

end Sys2Proof.Machine
end

section
/-! SUPPORT. The spec's operand tables (30_encoding.md R53 to R55) against the model's resolver: what a role answers for
an encoded operand word, and the operand faults that follow for every instruction with those roles. -/

namespace Sys2Proof.Machine

variable {s : State} {w : Word} {d : RegNum}

/-! ## A word that does not resolve -/

theorem withValue_error {a : Operand} {c : Cause} {k : Word → Result} (h : s.value a = .error c) :
    withValue a s k = .next (s.raise c) := by
  simp only [withValue, h]

theorem withDest_error {a : Operand} {c : Cause} {k : RegNum → Result} (h : destination a = .error c) :
    withDest a s k = .next (s.raise c) := by
  simp only [withDest, h]

/-- Where the spec's value table raises, the word is above the register selectors (R54). -/
theorem value_of_val_eq_none (h : Spec.val s w = none) : s.value (.ofWord w) = .error ⟨.invalidOperand, w⟩ := by
  obtain ⟨-, -, hinvalid⟩ := valueResolutionFollowsTheWord s w
  simp only [Spec.val] at h
  split at h
  · cases h
  · split at h
    · cases h
    · exact hinvalid (by omega)

/-- Where the spec's destination table raises, the word is no register selector (R55). -/
theorem destination_of_reg_eq_none (h : Spec.reg w = none) :
    destination (.ofWord w) = .error ⟨.invalidAddress, w⟩ := by
  obtain ⟨-, hnone⟩ := destinationResolutionFollowsTheWord w
  simp only [Spec.reg] at h
  split at h
  · cases h
  · next hw => exact hnone (by rw [not_and_or] at hw; omega)

/-- A word with a place in the spec's destination table is a register selector (R55). -/
theorem ofWord_of_reg (h : Spec.reg w = some d) : Operand.ofWord w = .register d := by
  simp only [Spec.reg] at h
  split at h
  · next hw =>
    obtain ⟨hlo, hhi⟩ := hw
    rw [← Option.some.inj h]
    exact Operand.ofWord_eq_register hlo hhi
  · cases h

/-! ## The operand faults of an instruction, from its roles -/

theorem withValue_of_val_eq_none {k : Word → Result} (h : Spec.val s w = none) :
    withValue (.ofWord w) s k = Spec.aborts s .invalidOperand w :=
  withValue_error (value_of_val_eq_none h)

theorem withDest_of_reg_eq_none {k : RegNum → Result} (h : Spec.reg w = none) :
    withDest (.ofWord w) s k = Spec.aborts s .invalidAddress w :=
  withDest_error (destination_of_reg_eq_none h)

theorem withDest_of_reg {k : RegNum → Result} (h : Spec.reg w = some d) : withDest (.ofWord w) s k = k d := by
  rw [ofWord_of_reg h]
  rfl

theorem faultsV_of_withValue {mk : Operand → Instr} (k : State → Word → Result)
    (h : ∀ a s, exec (mk a) s = withValue a s (k s)) : Spec.FaultsV mk :=
  fun s _ ha => (h _ s).trans (withValue_of_val_eq_none ha)

theorem faultsD_of_withDest {mk : Operand → Instr}
    (h : ∀ a s, exec (mk a) s = withDest a s fun d => exec (mk (.register d)) s) : Spec.FaultsD mk :=
  fun s _ ha => (h _ s).trans (withDest_of_reg_eq_none ha)

theorem faultsDV_of_withDV {mk : Operand → Operand → Instr} (k : State → RegNum → Word → Result)
    (h : ∀ a b s, exec (mk a b) s = withDV a b s (k s)) : Spec.FaultsDV mk := by
  intro s a b
  rw [h]
  refine ⟨withDest_of_reg_eq_none, fun d ha hb => ?_⟩
  exact (withDest_of_reg ha).trans (withValue_of_val_eq_none hb)

end Sys2Proof.Machine
end

section
/-! SUPPORT. The statements about `set`, `push` and `pop` (41_move_stack.md): their cells, their operand faults by their
roles, and the next state of operands that resolve. -/

namespace Sys2Proof.Machine

variable {s : State} {d : RegNum} {v : Word} {st : List Word}

/-- `set` has roles `D V`, and then writes the value and advances over its three cells (R75). -/
theorem exec_set_eq_withDV (a b : Operand) (s : State) :
    exec (.set a b) s = withDV a b s fun d v => .next ((s.setReg d v).advance 3) := rfl

/-- `push` has role `V`, and then pushes the value and advances over its two cells (R76). -/
theorem exec_push_eq_withValue (a : Operand) (s : State) :
    exec (.push a) s = withValue a s fun v => .next ((s.pushWord v).advance 2) := rfl

/-- `pop` has role `D`: what it does beyond resolving its operand it does to a register (R77). -/
theorem exec_pop_eq_withDest (a : Operand) (s : State) :
    exec (.pop a) s = withDest a s fun d => exec (.pop (.register d)) s := by
  cases a <;> rfl

/-- The stack is tested after the destination has resolved: an empty one is an underflow. -/
theorem exec_pop_register_of_nil (h : s.stack = []) :
    exec (.pop (.register d)) s = .next (s.raise ⟨.stackUnderflow, 3⟩) := by
  simp only [exec, execPop, withDest, destination, h]

/-- From a stack that is not empty the top goes to the register. -/
theorem exec_pop_register_of_cons (h : s.stack = v :: st) :
    exec (.pop (.register d)) s = .next (((s.setStack st).setReg d v).advance 2) := by
  simp only [exec, execPop, withDest, destination, h]

/-- Settles O3: the roles `D V` resolve, and `set` writes the register and advances. -/
theorem setCopiesSixteenBits : Obligations.SetCopiesSixteenBits := by
  refine ⟨fun _ _ _ => rfl, faultsDV_of_withDV _ exec_set_eq_withDV, fun s a b d v ha hb => ?_⟩
  rw [ofWord_of_reg ha, exec_set_eq_withDV, withDV_ok (value_of_val hb)]
  rfl

/-- Settles O4: the role `V` resolves, and `push` pushes the value and advances. -/
theorem pushMakesTheValueTheTop : Obligations.PushMakesTheValueTheTop := by
  refine ⟨fun _ _ => rfl, faultsV_of_withValue _ exec_push_eq_withValue, fun s a v ha => ?_⟩
  rw [exec_push_eq_withValue, withValue_ok (value_of_val ha)]
  rfl

/-- Settles O5: the role `D` resolves, and only then the stack is tested. -/
theorem popTakesTheTopOrUnderflows : Obligations.PopTakesTheTopOrUnderflows := by
  refine ⟨fun _ _ => rfl, faultsD_of_withDest exec_pop_eq_withDest, fun s a d ha hst => ?_,
    fun s a d v st ha hst => ?_⟩
  · rw [ofWord_of_reg ha, exec_pop_register_of_nil hst]
    rfl
  · rw [ofWord_of_reg ha, exec_pop_register_of_cons hst]
    rfl

end Sys2Proof.Machine
end

section
/-! SUPPORT. The instructions of format `W4` (30_encoding.md R51) with the roles `D V V` (R61): their operand faults, and
the next state of a two-operand computation whose operands resolve. -/

namespace Sys2Proof.Machine

variable {s : State} {a b c : Word} {d : RegNum} {v w : Word}

/-- What follows the resolution may depend on the encoded operand `c` too, as the fault of `mod` does (R98). -/
theorem faultsDVV_of_withDVV {mk : Operand → Operand → Operand → Instr}
    (k : Operand → State → RegNum → Word → Word → Result)
    (h : ∀ a b c s, exec (mk a b c) s = withDVV a b c s (k c s)) : Spec.FaultsDVV mk := by
  intro s a b c
  rw [h]
  refine ⟨withDest_of_reg_eq_none, fun d ha hb => ?_, fun d v ha hb hc => ?_⟩
  · exact (withDest_of_reg ha).trans (withValue_of_val_eq_none hb)
  · rw [ofWord_of_reg ha]
    exact (withValue_ok (value_of_val hb)).trans (withValue_of_val_eq_none hc)

theorem faultsDVV_of_binaryOp {mk : Operand → Operand → Operand → Instr} {f : Word → Word → Word}
    (h : ∀ a b c s, exec (mk a b c) s = binaryOp f a b c s) : Spec.FaultsDVV mk :=
  faultsDVV_of_withDVV _ h

/-- A two-operand computation whose operands resolve writes its result to the register and advances (R62). -/
theorem binaryOp_of_reg_of_val (f : Word → Word → Word) (ha : Spec.reg a = some d) (hb : Spec.val s b = some v)
    (hc : Spec.val s c = some w) :
    binaryOp f (.ofWord a) (.ofWord b) (.ofWord c) s =
      .next { s with regs := s.regs.set d (f v w), pc := s.pc + 4 } := by
  rw [binaryOp, ofWord_of_reg ha, withDVV_ok (value_of_val hb) (value_of_val hc)]
  rfl

end Sys2Proof.Machine
end

section
/-! SUPPORT. The statements about `eq` and `gt` (42_compare.md): each is a two-operand computation, whose result is the
truth of its relation on the naturals written as 1 or 0. -/

namespace Sys2Proof.Machine

/-- `eq` is the two-operand computation of `eqWord` (R80). -/
theorem exec_eq_eq_binaryOp (a b c : Operand) (s : State) : exec (.eq a b c) s = binaryOp eqWord a b c s := rfl

/-- `gt` is the two-operand computation of `gtWord` (R81). -/
theorem exec_gt_eq_binaryOp (a b c : Operand) (s : State) : exec (.gt a b c) s = binaryOp gtWord a b c s := rfl

theorem truthWord_decide (p : Prop) [Decidable p] : truthWord (decide p) = if p then 1 else 0 := by
  simp only [truthWord, decide_eq_true_eq]

/-- Equal cells are cells with the same number (R80). -/
theorem eqWord_eq_ite (v w : Word) : eqWord v w = if v.toNat = w.toNat then 1 else 0 := by
  simp only [eqWord, truthWord_decide, BitVec.toNat_inj]

theorem gtWord_eq_ite (v w : Word) : gtWord v w = if v.toNat > w.toNat then 1 else 0 :=
  truthWord_decide _

/-- Settles O6: the roles `D V V` resolve, and `eq` writes whether the numbers of the two cells are equal. -/
theorem eqWritesOneOrZero : Obligations.EqWritesOneOrZero := by
  refine ⟨fun _ _ _ _ => rfl, faultsDVV_of_binaryOp exec_eq_eq_binaryOp, fun s a b c d v w ha hb hc => ?_⟩
  rw [exec_eq_eq_binaryOp, binaryOp_of_reg_of_val eqWord ha hb hc, eqWord_eq_ite]

/-- Settles O7: the roles `D V V` resolve, and `gt` writes whether the first number is the greater. -/
theorem gtComparesUnsigned : Obligations.GtComparesUnsigned := by
  refine ⟨fun _ _ _ _ => rfl, faultsDVV_of_binaryOp exec_gt_eq_binaryOp, fun s a b c d v w ha hb hc => ?_⟩
  rw [exec_gt_eq_binaryOp, binaryOp_of_reg_of_val gtWord ha hb hc, gtWord_eq_ite]

end Sys2Proof.Machine
end

section
/-! SUPPORT. The statements about the control transfers (43_control_transfer.md): the operand faults of roles `V V`
(30_encoding.md R61), the test of a conditional jump on the natural number of its condition, and the way from a `call`
through the stack back to its `ret`. -/

namespace Sys2Proof.Machine

variable {s : State} {v : Word} {st : List Word}

theorem faultsVV_of_withVV {mk : Operand → Operand → Instr} (k : State → Word → Word → Result)
    (h : ∀ a b s, exec (mk a b) s = withVV a b s (k s)) : Spec.FaultsVV mk := by
  intro s a b
  rw [h]
  refine ⟨withValue_of_val_eq_none, fun v ha hb => ?_⟩
  exact (withValue_ok (value_of_val ha)).trans (withValue_of_val_eq_none hb)

/-! ## The shape of each control transfer -/

/-- `jmp` has role `V`, and then loads the value unchecked (R85, R90). -/
theorem exec_jmp_eq_withValue (a : Operand) (s : State) :
    exec (.jmp a) s = withValue a s fun v => .next (s.setPc v) := rfl

/-- `jt` has roles `V V`, and only then tests the first value (R86). -/
theorem exec_jt_eq_withVV (a b : Operand) (s : State) :
    exec (.jt a b) s = withVV a b s fun v t => branch (!isZero v) t s := rfl

/-- `jf` has roles `V V`, and only then tests the first value (R87). -/
theorem exec_jf_eq_withVV (a b : Operand) (s : State) :
    exec (.jf a b) s = withVV a b s fun v t => branch (isZero v) t s := rfl

/-- `call` has role `V`, and then pushes the return address and loads the value (R88). -/
theorem exec_call_eq_withValue (a : Operand) (s : State) :
    exec (.call a) s = withValue a s fun v => .next ((s.pushWord (s.pc + 2)).setPc v) := rfl

/-- On an empty stack `ret` is the graceful halt with the reason `Return` (R89). -/
theorem exec_ret_of_nil (h : s.stack = []) : exec .ret s = .next (s.halt .emptyReturn) := by
  simp only [exec, execRet, h]

/-- From a stack that is not empty the top goes to `pc` (R89). -/
theorem exec_ret_of_cons (h : s.stack = v :: st) : exec .ret s = .next ((s.setStack st).setPc v) := by
  simp only [exec, execRet, h]

/-! ## The test of a conditional jump -/

/-- A cell is zero if its number is. -/
theorem isZero_eq_decide (v : Word) : isZero v = decide (v.toNat = 0) :=
  decide_eq_decide.2 BitVec.toNat_inj.symm

/-- A branch changes `pc` alone, to its target or past its three cells. -/
theorem branch_decide (p : Prop) [Decidable p] (target : Word) (s : State) :
    branch (decide p) target s = .next (s.setPc (if p then target else s.pc + 3)) := by
  by_cases hp : p
  · simp only [branch, hp, decide_true, if_true]
  · simp only [branch, hp, decide_false, if_false, Bool.false_eq_true]
    rfl

/-! ## The statements -/

/-- Settles O8: the role `V` resolves, and `jmp` loads the value. -/
theorem jmpLoadsAnyTarget : Obligations.JmpLoadsAnyTarget := by
  refine ⟨fun _ _ => rfl, faultsV_of_withValue _ exec_jmp_eq_withValue, fun s a v ha => ?_⟩
  rw [exec_jmp_eq_withValue, withValue_ok (value_of_val ha)]
  rfl

/-- Settles O9: the roles `V V` resolve, and the branch is taken unless the number of the condition is 0. -/
theorem jtJumpsOnNonZero : Obligations.JtJumpsOnNonZero := by
  refine ⟨fun _ _ _ => rfl, faultsVV_of_withVV _ exec_jt_eq_withVV, fun s a b v t ha hb => ?_⟩
  rw [exec_jt_eq_withVV, withVV_ok (value_of_val ha) (value_of_val hb), isZero_eq_decide, ← decide_not,
    branch_decide]
  rfl

/-- Settles O10: the roles `V V` resolve, and the branch is taken if the number of the condition is 0. -/
theorem jfJumpsOnZero : Obligations.JfJumpsOnZero := by
  refine ⟨fun _ _ _ => rfl, faultsVV_of_withVV _ exec_jf_eq_withVV, fun s a b v t ha hb => ?_⟩
  rw [exec_jf_eq_withVV, withVV_ok (value_of_val ha) (value_of_val hb), isZero_eq_decide, branch_decide]
  rfl

/-- A `call` whose operand resolves pushes the return address and loads the target. -/
theorem exec_call_of_val {a : Word} (h : Spec.val s a = some v) :
    exec (.call (.ofWord a)) s = .next ((s.pushWord (s.pc + 2)).setPc v) := by
  rw [exec_call_eq_withValue, withValue_ok (value_of_val h)]

/-- Settles O11: the role `V` resolves, and only then `call` pushes. -/
theorem callPushesTheReturnAddress : Obligations.CallPushesTheReturnAddress :=
  ⟨fun _ _ => rfl, faultsV_of_withValue _ exec_call_eq_withValue, fun _ _ _ => exec_call_of_val⟩

/-- Settles O49: the stack a `call` leaves is its return address on top of the caller's stack, which is what `ret`
takes apart. -/
theorem retResumesAfterItsCall : Obligations.RetResumesAfterItsCall := by
  intro s a v ha
  refine ⟨(s.pushWord (s.pc + 2)).setPc v, exec_call_of_val ha, rfl, fun u hu => ?_⟩
  have hstack : u.stack = (s.pc + 2) :: s.stack := hu
  exact exec_ret_of_cons hstack

/-- Settles O12: the cell 18 is the encoding of `ret`, and what it does is decided by the stack. -/
theorem retPopsOrHalts : Obligations.RetPopsOrHalts :=
  ⟨decode_encode (i := .ret) rfl, fun _ => exec_ret_of_nil, fun _ _ _ => exec_ret_of_cons⟩

end Sys2Proof.Machine
end

section
/-! SUPPORT. The statements about `add`, `mult`, `mod`, `and`, `or` and `not` (44_alu.md): the instructions of roles
`D V V` and `D V` (30_encoding.md R61), with their results as numbers. -/

namespace Sys2Proof.Machine

/-! ## The shape of each computation -/

/-- `add` is the two-operand computation of `addWord` (R96). -/
theorem exec_add_eq_binaryOp (a b c : Operand) (s : State) : exec (.add a b c) s = binaryOp addWord a b c s := rfl

/-- `mult` is the two-operand computation of `multWord` (R97). -/
theorem exec_mult_eq_binaryOp (a b c : Operand) (s : State) : exec (.mult a b c) s = binaryOp multWord a b c s := rfl

/-- `mod` has roles `D V V`, and only then tests the divisor, whose fault records the encoded operand (R98). -/
theorem exec_mod_eq_withDVV (a b c : Operand) (s : State) :
    exec (.mod a b c) s = withDVV a b c s fun d v w =>
      if w = 0 then .next (s.raise ⟨.modByZero, c.encode⟩)
      else .next ((s.setReg d (modWord v w)).advance 4) := rfl

/-- `and` is the two-operand computation of the bitwise AND (R99). -/
theorem exec_and_eq_binaryOp (a b c : Operand) (s : State) : exec (.and a b c) s = binaryOp (· &&& ·) a b c s := rfl

/-- `or` is the two-operand computation of the bitwise OR (R100). -/
theorem exec_or_eq_binaryOp (a b c : Operand) (s : State) : exec (.or a b c) s = binaryOp (· ||| ·) a b c s := rfl

/-- `not` has roles `D V`, and then writes the complement and advances over its three cells (R101). -/
theorem exec_not_eq_withDV (a b : Operand) (s : State) :
    exec (.not a b) s = withDV a b s fun d v => .next ((s.setReg d (notWord v)).advance 3) := rfl

/-! ## The results as numbers -/

/-- The AND of two cells is the cell of the AND of their numbers: nothing is reduced (R99). -/
theorem and_eq_ofNat (v w : Word) : v &&& w = BitVec.ofNat 16 (v.toNat &&& w.toNat) := by
  rw [← BitVec.toNat_and, BitVec.ofNat_toNat, BitVec.setWidth_eq]

/-- The OR of two cells is the cell of the OR of their numbers: nothing is reduced (R100). -/
theorem or_eq_ofNat (v w : Word) : v ||| w = BitVec.ofNat 16 (v.toNat ||| w.toNat) := by
  rw [← BitVec.toNat_or, BitVec.ofNat_toNat, BitVec.setWidth_eq]

/-- The mask `0x7FFF` is a reduction modulo 32768, so it takes the complement to 16 bits to the one to 15 (R101). -/
theorem notWord_eq_ofNat (v : Word) : notWord v = BitVec.ofNat 16 (32767 - v.toNat % 32768) := by
  apply BitVec.eq_of_toNat_eq
  have hv := v.isLt
  calc (notWord v).toNat
      = (65535 - v.toNat) &&& (2 ^ 15 - 1) := by
        rw [notWord, BitVec.toNat_and, BitVec.toNat_not]; rfl
    _ = (65535 - v.toNat) % 2 ^ 15 := Nat.and_two_pow_sub_one_eq_mod _ 15
    _ = (32767 - v.toNat % 32768) % 2 ^ 16 := by omega
    _ = (BitVec.ofNat 16 (32767 - v.toNat % 32768)).toNat := (BitVec.toNat_ofNat ..).symm

/-! ## The statements -/

/-- Settles O13: the roles `D V V` resolve, and `add` writes the reduced sum. -/
theorem addWritesTheSumModulo32768 : Obligations.AddWritesTheSumModulo32768 := by
  refine ⟨fun _ _ _ _ => rfl, faultsDVV_of_binaryOp exec_add_eq_binaryOp, fun s a b c d v w ha hb hc => ?_⟩
  rw [exec_add_eq_binaryOp, binaryOp_of_reg_of_val addWord ha hb hc, addWord]

/-- Settles O14: the roles `D V V` resolve, and `mult` writes the reduced product. -/
theorem multWritesTheProductModulo32768 : Obligations.MultWritesTheProductModulo32768 := by
  refine ⟨fun _ _ _ _ => rfl, faultsDVV_of_binaryOp exec_mult_eq_binaryOp, fun s a b c d v w ha hb hc => ?_⟩
  rw [exec_mult_eq_binaryOp, binaryOp_of_reg_of_val multWord ha hb hc, multWord]

/-- Settles O15: the roles `D V V` resolve, and only then the divisor is tested; the word that a zero divisor's fault
records is the one that was decoded. -/
theorem modWritesTheRemainderOrAborts : Obligations.ModWritesTheRemainderOrAborts := by
  refine ⟨fun _ _ _ _ => rfl, faultsDVV_of_withDVV _ exec_mod_eq_withDVV, fun s a b c d v ha hb hc => ?_,
    fun s a b c d v w ha hb hc hw => ?_⟩
  · rw [ofWord_of_reg ha, exec_mod_eq_withDVV, withDVV_ok (value_of_val hb) (value_of_val hc), if_pos rfl,
      Operand.encode_ofWord]
    rfl
  · rw [ofWord_of_reg ha, exec_mod_eq_withDVV, withDVV_ok (value_of_val hb) (value_of_val hc), if_neg hw]
    rfl

/-- Settles O16: the roles `D V V` resolve, and `and` writes the AND of the numbers of the two cells. -/
theorem andIsBitwiseAtFullWidth : Obligations.AndIsBitwiseAtFullWidth := by
  refine ⟨fun _ _ _ _ => rfl, faultsDVV_of_binaryOp exec_and_eq_binaryOp, fun s a b c d v w ha hb hc => ?_⟩
  rw [exec_and_eq_binaryOp, binaryOp_of_reg_of_val (· &&& ·) ha hb hc, and_eq_ofNat]

/-- Settles O17: the roles `D V V` resolve, and `or` writes the OR of the numbers of the two cells. -/
theorem orIsBitwiseAtFullWidth : Obligations.OrIsBitwiseAtFullWidth := by
  refine ⟨fun _ _ _ _ => rfl, faultsDVV_of_binaryOp exec_or_eq_binaryOp, fun s a b c d v w ha hb hc => ?_⟩
  rw [exec_or_eq_binaryOp, binaryOp_of_reg_of_val (· ||| ·) ha hb hc, or_eq_ofNat]

/-- Settles O18: the roles `D V` resolve, and `not` writes the complement to 15 bits. -/
theorem notComplementsFifteenBits : Obligations.NotComplementsFifteenBits := by
  refine ⟨fun _ _ _ => rfl, faultsDV_of_withDV _ exec_not_eq_withDV, fun s a b d v ha hb => ?_⟩
  rw [ofWord_of_reg ha, exec_not_eq_withDV, withDV_ok (value_of_val hb), notWord_eq_ofNat]
  rfl

end Sys2Proof.Machine
end

section
/-! SUPPORT. The statements about `rmem` and `wmem` (45_memory_access.md): the instructions of roles `D V` and `V V`
(30_encoding.md R61) that go on only where the address exists (20_memory.md R33). -/

namespace Sys2Proof.Machine

variable {s : State} {a b : Word} {d : RegNum} {ea v : Word}

/-! ## The shape of each memory access -/

/-- `rmem` has roles `D V`, and only then tests the address (R105). -/
theorem exec_rmem_eq_withDV (a b : Operand) (s : State) :
    exec (.rmem a b) s = withDV a b s fun d ea =>
      if ea.toNat < Config.memWords then .next ((s.setReg d (s.mem.read ea.toNat)).advance 3)
      else .next (s.raise ⟨.invalidAddress, ea⟩) := by
  refine congrArg (withDV a b s) (funext₂ fun d ea => ?_)
  by_cases hea : ea.toNat < Config.memWords
  · simp only [State.memRead, if_pos hea]
  · simp only [State.memRead, if_neg hea]

/-- `wmem` has roles `V V`, and only then tests the address (R106). -/
theorem exec_wmem_eq_withVV (a b : Operand) (s : State) :
    exec (.wmem a b) s = withVV a b s fun ea v =>
      if ea.toNat < Config.memWords then .next ((s.setCell ea.toNat v).advance 3)
      else .next (s.raise ⟨.invalidAddress, ea⟩) := by
  refine congrArg (withVV a b s) (funext₂ fun ea v => ?_)
  by_cases hea : ea.toNat < Config.memWords
  · simp only [State.memWrite, if_pos hea]
  · simp only [State.memWrite, if_neg hea]

/-! ## An access whose operands resolve -/

/-- A load from an address that exists copies the cell to the register and advances (R105). -/
theorem exec_rmem_of_lt (ha : Spec.reg a = some d) (hb : Spec.val s b = some ea) (hea : ea.toNat < Config.memWords) :
    exec (.rmem (.ofWord a) (.ofWord b)) s = .next ((s.setReg d (s.mem.read ea.toNat)).advance 3) := by
  rw [ofWord_of_reg ha, exec_rmem_eq_withDV, withDV_ok (value_of_val hb), if_pos hea]

/-- A load from an address that does not exist aborts on the address (R33). -/
theorem exec_rmem_of_le (ha : Spec.reg a = some d) (hb : Spec.val s b = some ea) (hea : Config.memWords ≤ ea.toNat) :
    exec (.rmem (.ofWord a) (.ofWord b)) s = Spec.aborts s .invalidAddress ea := by
  rw [ofWord_of_reg ha, exec_rmem_eq_withDV, withDV_ok (value_of_val hb), if_neg hea.not_gt]
  rfl

/-- A store to an address that does not exist aborts on the address, with nothing written (R33). -/
theorem exec_wmem_of_le (ha : Spec.val s a = some ea) (hb : Spec.val s b = some v)
    (hea : Config.memWords ≤ ea.toNat) :
    exec (.wmem (.ofWord a) (.ofWord b)) s = Spec.aborts s .invalidAddress ea := by
  rw [exec_wmem_eq_withVV, withVV_ok (value_of_val ha) (value_of_val hb), if_neg hea.not_gt]
  rfl

/-! ## The statements -/

/-- Settles O19: the roles `D V` resolve, and `rmem` loads the cell if its address exists. -/
theorem rmemLoadsOneCell : Obligations.RmemLoadsOneCell := by
  refine ⟨fun _ _ _ => rfl, faultsDV_of_withDV _ exec_rmem_eq_withDV, fun s a b d ea => exec_rmem_of_le,
    fun s a b d ea ha hb hea => ?_⟩
  exact exec_rmem_of_lt ha hb (Nat.lt_succ_of_le hea)

/-- Settles O20: the roles `V V` resolve, and the memory that a store to an existing address leaves is the one written
at that address, of which the laws of program memory tell every cell. -/
theorem wmemStoresOneCell : Obligations.WmemStoresOneCell := by
  refine ⟨fun _ _ _ => rfl, faultsVV_of_withVV _ exec_wmem_eq_withVV, fun s a b ea v => exec_wmem_of_le,
    fun s a b ea v hm ha hb hea => ?_⟩
  have hlt : ea.toNat < Config.memWords := Nat.lt_succ_of_le hea
  exact ⟨s.mem.write ea.toNat v, exec_wmem (value_of_val ha) (value_of_val hb) hlt, Memory.wf_write v hm hlt,
    Memory.read_write_same _ v hm, fun x => Memory.read_write_ne s.mem v⟩

end Sys2Proof.Machine
end

section
/-! SUPPORT. The statements about `out` and `in` (46_io.md): what each does once its operand resolves, the wait of an
`in` as the same step before and after a host move, and the ports that no other instruction touches. -/

namespace Sys2Proof.Machine

variable {s t u : State} {i : Instr} {r : RegNum}

/-! ## The shape of the two port instructions -/

/-- `out` has role `V`, and then emits the low byte of the value and advances over its two cells (R110). -/
theorem exec_out_eq_withValue (a : Operand) (s : State) :
    exec (.out a) s = withValue a s fun v => .next ((s.emit (v.setWidth 8)).advance 2) := rfl

/-- `in` has role `D`: what it does beyond resolving its operand it does to a register (R111). -/
theorem exec_in_eq_withDest (a : Operand) (s : State) :
    exec (.input a) s = withDest a s fun d => exec (.input (.register d)) s := by
  cases a <;> rfl

/-- An `in` into a register asks the channel for a code. -/
theorem exec_in_register (r : RegNum) (s : State) : exec (.input (.register r)) s = serveInput r s := rfl

/-! ## `out` -/

/-- The low 8 bits of a word are its number modulo 256. -/
theorem setWidth_eight_eq_ofNat_mod (v : Word) : v.setWidth 8 = BitVec.ofNat 8 (v.toNat % 256) := by
  apply BitVec.eq_of_toNat_eq
  rw [BitVec.toNat_setWidth, BitVec.toNat_ofNat]
  omega

/-- Settles O21: the role `V` resolves, and `out` emits the low byte and advances. -/
theorem outEmitsTheLowEightBits : Obligations.OutEmitsTheLowEightBits := by
  refine ⟨fun _ _ => rfl, faultsV_of_withValue _ exec_out_eq_withValue, fun s a v ha => ?_⟩
  rw [exec_out_eq_withValue, withValue_ok (value_of_val ha), setWidth_eight_eq_ofNat_mod]
  rfl

/-! ## `in` -/

/-- What a delivery from a pulled line leaves, field by field: the directives keep `pc`. -/
theorem deliver_applyDirectives (ds : List Directive) (s : State) (ls : List InputLine) (r : RegNum) (c : Word)
    (q : List Word) :
    { applyDirectives ds s with lines := ls }.deliver r c q =
      { applyDirectives ds s with
        regs := (applyDirectives ds s).regs.set r c, input := q, lines := ls, waiting := none, pc := s.pc + 2 } := by
  obtain ⟨hpc, -⟩ := applyDirectives_frame ds s
  rw [← hpc]
  rfl

/-- Settles O22: the role `D` resolves, and only then the channel is asked; the lines decide what it answers. A line
with no directives ahead of it is the line with an empty list of them. -/
theorem inDeliversOneCodeOrSticks : Obligations.InDeliversOneCodeOrSticks := by
  refine ⟨fun _ _ => rfl, faultsD_of_withDest exec_in_eq_withDest, fun s a r c q ha hi => ?_,
    fun s a r cs ls c q ha hi hl hc => ?_, fun s a r ds cs ls c q ha hi hl hc => ?_, fun s a r ha hi hl => ?_⟩ <;>
    rw [ofWord_of_reg ha, exec_in_register]
  · exact serveInput_pending hi
  · exact serveInput_line (ds := []) hi hl hc
  · rw [serveInput_line hi hl hc, deliver_applyDirectives]
  · exact serveInput_stuck hi hl

/-! ## The step of a wait -/

/-- Directives neither read nor write the lines, the wait or the trace log. -/
theorem applyDirectives_comm (ds : List Directive) (s : State) (ls : List InputLine) (w : Option RegNum)
    (log : List TraceRecord) :
    applyDirectives ds { s with lines := ls, waiting := w, traceLog := log } =
      { applyDirectives ds s with lines := ls, waiting := w, traceLog := log } := by
  induction ds generalizing s with
  | nil => rfl
  | cons d ds ih =>
    rw [applyDirectives, applyDirective_comm]
    exact ih (applyDirective d s)

/-- An `in` whose wait has begun is served as one whose wait has not, but for the record before that is emitted. -/
theorem serveInput_enterWait (h : serveInput r s = .next u) :
    serveInput r (s.enterWait r) = .next { u with traceLog := (s.enterWait r).traceLog } := by
  obtain ⟨c, q, hi, rfl⟩ | ⟨ds, cs, ls, c, q, hi, hl, hc, rfl⟩ := serveInput_next h
  · exact serveInput_pending (s := s.enterWait r) hi
  · have hds : applyDirectives ds (s.enterWait r) =
        { applyDirectives ds s with lines := s.lines, waiting := some r, traceLog := (s.enterWait r).traceLog } :=
      applyDirectives_comm ds s s.lines (some r) (s.enterWait r).traceLog
    rw [serveInput_line (s := s.enterWait r) hi hl hc, hds]
    rfl

/-- A wait already begun is not begun again. -/
theorem enterWait_of_waiting (h : s.waiting = some r) : s.enterWait r = s := by
  cases s
  cases h
  simp [State.enterWait]

/-- The step of a machine that stands at an `in` is the step of its wait, whether or not the wait has begun. -/
theorem step_of_inDest (hr : s.run = .running) (hd : s.inDest = some r) :
    step s = traceWait r (serveInput r (s.enterWait r)) := by
  obtain hw | ⟨hw, hf⟩ := State.inDest_eq_some hd
  · rw [step_of_wait hr hw, enterWait_of_waiting hw]
  · rw [step_of_fetch hr hw hf, exec_in_register]
    obtain ⟨u, hu⟩ | ⟨hi, hl, hstuck⟩ := serveInput_answers (r := r) (s := s)
    · obtain ⟨hlog, -⟩ := serveInput_traceLog_and_pc hu
      rw [hu, serveInput_enterWait hu]
      simp only [traceInstr, traceWait, Result.traced, hlog, State.enterWait_traceLog, hw, Option.isNone_none,
        if_true, List.append_assoc]
      rfl
    · rw [hstuck, serveInput_stuck (s := s.enterWait r) hi hl]
      rfl

/-- A step has no next state for want of input exactly where a running machine stands at an `in` with no code and no
ordinary line (46_io.md R116). -/
theorem step_eq_waitingForInput_iff : step s = .fault .waitingForInput ↔
    s.run = .running ∧ s.input = [] ∧ (∀ cs, .text cs ∉ s.lines) ∧ ∃ r, s.inDest = some r := by
  constructor
  · intro h
    simp only [step] at h
    split at h
    · cases h
    · cases h
    · next hr =>
      split at h
      · next r hw =>
        obtain ⟨u, hu⟩ | ⟨hi, hl, -⟩ := serveInput_answers (r := r) (s := s)
        · rw [hu] at h; cases h
        · exact ⟨hr, hi, hl, r, State.inDest_waiting hw⟩
      · next hw =>
        split at h
        · cases h
        · cases h
        · next i hf =>
          obtain ⟨u, hu⟩ | ⟨r, rfl, hi, hl, -⟩ := exec_answers i s
          · rw [hu] at h; cases h
          · exact ⟨hr, hi, hl, r, State.inDest_fetch hw hf⟩
  · rintro ⟨hr, hi, hl, r, hd⟩
    rw [step_of_inDest hr hd, serveInput_stuck (s := s.enterWait r) hi hl]
    rfl

/-! ## A directive line during the wait -/

theorem applyDirective_lines (d : Directive) (s : State) (ls : List InputLine) :
    applyDirective d { s with lines := ls } = { applyDirective d s with lines := ls } := by
  obtain ⟨-, -, -, hw, -, -, -, -, hlog⟩ := applyDirective_frame d s
  calc applyDirective d { s with lines := ls }
      = { applyDirective d s with lines := ls, waiting := s.waiting, traceLog := s.traceLog } :=
        applyDirective_comm d s ls s.waiting s.traceLog
    _ = { applyDirective d s with lines := ls } := by rw [← hw, ← hlog]

/-- A pull reads the lines it is given, not those of the state. -/
theorem pullLine_lines (ls ls' : List InputLine) (s : State) :
    pullLine ls { s with lines := ls' } = pullLine ls s := by
  induction ls generalizing s with
  | nil => rfl
  | cons l ls ih =>
    cases l with
    | text cs => rfl
    | directive d =>
      rw [pullLine, pullLine, applyDirective_lines]
      exact ih (applyDirective d s)

/-- With the queue empty the service of an `in` is decided by the pull. -/
theorem serveInput_congr (hs : s.input = []) (ht : t.input = []) (h : pullLine s.lines s = pullLine t.lines t) :
    serveInput r s = serveInput r t := by
  simp only [serveInput, hs, ht, h]

/-- The service of an `in` makes of a directive line that is next what a host makes of it that moves before. -/
theorem serveInput_applyDirective {d : Directive} {ls : List InputLine} (hi : s.input = [])
    (hl : s.lines = .directive d :: ls) :
    serveInput r (applyDirective d { s with lines := ls }) = serveInput r s := by
  obtain ⟨-, -, -, -, hin, -⟩ := applyDirective_frame d s
  rw [applyDirective_lines]
  refine serveInput_congr (s := { applyDirective d s with lines := ls }) (hin.trans hi) hi ?_
  rw [hl, pullLine, pullLine_lines]

/-- Settles O37: entering the wait and moving a directive line before the step both leave the service what it was. -/
theorem directiveLineIsConsumedDuringTheWait : Obligations.DirectiveLineIsConsumedDuringTheWait := by
  intro s r d ls hr hi hl hw
  have hd : s.inDest = some r := hw.elim State.inDest_waiting fun ⟨hw, hf⟩ => State.inDest_fetch hw hf
  have hmove := hostMove_eq hr hi hl hd
  refine ⟨⟨(s.enterWait r).traceLog, ?_⟩, fun t ht => ?_, fun hno => ?_⟩
  · rw [hmove]
    exact congrArg some (applyDirective_comm d s ls (some r) (s.enterWait r).traceLog)
  · obtain rfl := Option.some.inj (hmove.symm.trans ht)
    obtain ⟨-, -, hrun, hwait, -⟩ := applyDirective_frame d ({ s with lines := ls }.enterWait r)
    rw [step_of_wait (hrun.trans hr) hwait, step_of_inDest hr hd]
    exact congrArg (traceWait r) (serveInput_applyDirective (s := s.enterWait r) hi hl)
  · exact step_eq_waitingForInput_iff.2 ⟨hr, hi, by simp [hl, hno], r, hd⟩

/-! ## The end of a wait -/

/-- Settles O38: the held register is the one served. -/
theorem waitingInCompletesIntoItsRegister : Obligations.WaitingInCompletesIntoItsRegister := by
  refine fun s r hr hw hi => ⟨fun ds cs ls c q hl hc => ?_, fun hno => ?_⟩
  · rw [step_of_wait hr hw, serveInput_line hi hl hc, deliver_applyDirectives]
    exact ⟨_, rfl⟩
  · exact step_eq_waitingForInput_iff.2 ⟨hr, hi, hno, r, State.inDest_waiting hw⟩

/-- The service of an `in` keeps the run state, port OUT and the terminator. -/
theorem serveInput_run_and_output_and_lineTerm (h : serveInput r s = .next t) :
    t.run = s.run ∧ t.output = s.output ∧ t.lineTerm = s.lineTerm := by
  obtain ⟨c, q, -, rfl⟩ | ⟨ds, cs, ls, c, q, -, -, -, rfl⟩ := serveInput_next h
  · exact ⟨rfl, rfl, rfl⟩
  · obtain ⟨-, -, hrun, -, -, -, hlt, hout, -⟩ := applyDirectives_frame ds s
    exact ⟨hrun, hout, hlt⟩

/-- A machine that stands at an `in` completes it if an ordinary line is there. -/
theorem step_of_inDest_of_text {cs : List Word} (hr : s.run = .running) (hd : s.inDest = some r)
    (hl : .text cs ∈ s.lines) :
    ∃ t, step s = .next t ∧ t.waiting = none ∧ t.pc = s.pc + 2 ∧ t.run = .running := by
  rw [step_of_inDest hr hd]
  obtain ⟨u, hu⟩ | ⟨-, hno, -⟩ := serveInput_answers (r := r) (s := s.enterWait r)
  · obtain ⟨hwait, -⟩ := serveInput_frame hu
    obtain ⟨-, hpc⟩ := serveInput_traceLog_and_pc hu
    obtain ⟨hrun, -⟩ := serveInput_run_and_output_and_lineTerm hu
    rw [hu]
    exact ⟨_, rfl, hwait, hpc, hrun.trans hr⟩
  · exact absurd hl (hno cs)

/-- Of lines without an ordinary one, with a directive line offered behind them, a directive line is next. -/
theorem lines_offer_directive {ls : List InputLine} (h : ∀ cs, .text cs ∉ ls) (d : Directive) :
    ∃ d' ls', ls ++ [.directive d] = .directive d' :: ls' := by
  cases ls with
  | nil => exact ⟨d, [], rfl⟩
  | cons l ls =>
    cases l with
    | text cs => exact absurd (List.mem_cons_self ..) (h cs)
    | directive d' => exact ⟨d', ls ++ [.directive d], rfl⟩

/-- Settles O39: an offered line leaves the machine at its `in`, and there the kind of the line decides. -/
theorem offeredLineLetsTheWaitGoOn : Obligations.OfferedLineLetsTheWaitGoOn := by
  intro s hstuck
  obtain ⟨hr, hi, hno, r, hd⟩ := step_eq_waitingForInput_iff.1 hstuck
  have hd' (l : InputLine) : (s.offerLine l).inDest = some r := hd
  refine ⟨fun cs => ?_, fun d => ⟨?_, ?_⟩⟩
  · have hl : .text cs ∈ (s.offerLine (.text cs)).lines := by simp
    exact step_of_inDest_of_text (s := s.offerLine (.text cs)) hr (hd' _) hl
  · exact step_eq_waitingForInput_iff.2 ⟨hr, hi, by simp [hno], r, hd' _⟩
  · obtain ⟨d', ls', hl⟩ := lines_offer_directive hno d
    exact ⟨_, hostMove_eq (s := s.offerLine (.directive d)) hr hi hl (hd' _)⟩

/-! ## The ports -/

/-- Only `out` emits (R112). -/
theorem exec_output_ne (h : exec i s = .next t) (hne : t.output ≠ s.output) : ∃ a, i = .out a := by
  cases exec_effect h with
  | emitted a => exact ⟨a, rfl⟩
  | served _ _ _ hserve =>
    obtain ⟨-, hout, -⟩ := serveInput_run_and_output_and_lineTerm hserve
    exact absurd hout hne
  | _ => exact absurd rfl hne

/-- An instruction that is no `in` into a register leaves the input side alone (R113). -/
theorem exec_input_side (h : exec i s = .next t) : (∃ r, i = .input (.register r)) ∨
    t.input = s.input ∧ t.lines = s.lines ∧ t.waiting = s.waiting ∧ t.traceOn = s.traceOn := by
  cases exec_effect h with
  | served _ _ r => exact .inl ⟨r, rfl⟩
  | _ => exact .inr ⟨rfl, rfl, rfl, rfl⟩

/-- No instruction writes the terminator. -/
theorem exec_lineTerm (h : exec i s = .next t) : t.lineTerm = s.lineTerm := by
  cases exec_effect h with
  | served _ _ _ hserve =>
    obtain ⟨-, -, hlt⟩ := serveInput_run_and_output_and_lineTerm hserve
    exact hlt
  | _ => rfl

/-- Settles O46: of the effects an instruction can have, one touches port OUT and one the input side. -/
theorem portsChangeOnlyByOutAndIn : Obligations.PortsChangeOnlyByOutAndIn := by
  refine fun i s t h => ⟨exec_output_ne h, fun hne => ?_, exec_traceLog h, exec_lineTerm h⟩
  obtain hin | ⟨hinput, hlines, hwait, htrace⟩ := exec_input_side h
  · exact hin
  · simp [hinput, hlines, hwait, htrace] at hne

end Sys2Proof.Machine
end

section
/-! SUPPORT. The statements about debug directives (60_exceptions.md R132): the one change of each directive, and what a
host move, which is a directive applied during the wait of an `in`, changes and keeps. -/

namespace Sys2Proof.Machine

variable {s t : State} {i : Instr} {r : RegNum} {d : Directive}

/-! ## What a directive does -/

theorem applyDirective_wmem {addr val : Nat} (ha : addr < Config.memWords) (hv : val < 65536) :
    applyDirective (.wmem addr val) s = s.setCell addr (BitVec.ofNat 16 val) :=
  if_pos ⟨ha, hv⟩

/-- The bounds of a `wmem` directive are those of an address and of a word (D15). -/
theorem applyDirective_wmem_of_bounds {addr val : Nat} (h : Config.memWords ≤ addr ∨ 65536 ≤ val) :
    applyDirective (.wmem addr val) s = s :=
  if_neg fun ⟨ha, hv⟩ => h.elim ha.not_ge hv.not_ge

theorem applyDirective_wreg (reg : RegNum) {val : Nat} (hv : val < 65536) :
    applyDirective (.wreg reg.val val) s = s.setReg reg (BitVec.ofNat 16 val) := by
  simp only [applyDirective, if_pos (And.intro reg.isLt hv), Fin.ofNat_val_eq_self]

/-- The bounds of a `wreg` directive are those of a register number and of a word (D15). -/
theorem applyDirective_wreg_of_bounds {reg val : Nat} (h : 8 ≤ reg ∨ 65536 ≤ val) :
    applyDirective (.wreg reg val) s = s :=
  if_neg fun ⟨hr, hv⟩ => h.elim hr.not_ge hv.not_ge

/-- Settles O36: within its bounds a directive is one write of the state, out of them nothing. -/
theorem directiveChangesOneCellOneRegisterOrTheFlag : Obligations.DirectiveChangesOneCellOneRegisterOrTheFlag := by
  refine fun s hm => ⟨fun addr val ha hv => ?_, fun _ _ => applyDirective_wmem_of_bounds,
    fun reg val hv => applyDirective_wreg reg (Nat.lt_succ_of_le hv), fun _ _ => applyDirective_wreg_of_bounds,
    rfl, rfl⟩
  have hlt : addr < Config.memWords := Nat.lt_succ_of_le ha
  exact ⟨s.mem.write addr (BitVec.ofNat 16 val), applyDirective_wmem hlt (Nat.lt_succ_of_le hv),
    Memory.wf_write _ hm hlt, Memory.read_write_same addr _ hm, fun x => Memory.read_write_ne s.mem _⟩

/-! ## A host move -/

/-- All cells of a fetched instruction exist (20_memory.md R33). -/
theorem pc_add_length_le_of_fetch (h : s.fetch = .instr i) : s.pc.toNat + i.length ≤ Config.memWords := by
  obtain ⟨hpc, rest, hdec⟩ := fetch_instr h
  obtain ⟨-, hcells⟩ := Spells.of_decode hdec
  have hlen : min maxCells (Config.memWords - s.pc.toNat) = i.length + rest.length := by
    rw [← Memory.length_window, hcells, List.length_append, Instr.length]
  simp only [Config.fetchLimit, Config.memWords] at hpc hlen ⊢
  omega

/-- A machine that meets the invariant and stands at an `in` has the operand cell of that `in`. -/
theorem pc_succ_lt_of_inDest (hs : s.inv = true) (hd : s.inDest = some r) : s.pc.toNat + 1 < Config.memWords := by
  obtain hw | ⟨-, hf⟩ := State.inDest_eq_some hd
  · simp only [State.inv, State.waitOk, hw, Option.isNone_some, Bool.false_or, Bool.and_eq_true,
      decide_eq_true_eq] at hs
    obtain ⟨-, -, hpc⟩ := hs
    exact hpc
  · exact Nat.lt_of_succ_le (pc_add_length_le_of_fetch hf)

/-- A directive keeps the invariant: memory stays canonical, and it touches nothing that a wait is made of. -/
theorem applyDirective_inv (d : Directive) (hs : s.inv = true) : (applyDirective d s).inv = true := by
  obtain ⟨hpc, -, hrun, hwait, hin, -⟩ := applyDirective_frame d s
  have hok : (applyDirective d s).waitOk = s.waitOk := by simp only [State.waitOk, hpc, hrun, hwait, hin]
  rw [State.inv, applyDirective_wf d (State.wf_of_inv hs), hok]
  exact (Bool.and_eq_true_iff.1 hs).2

/-- A host move keeps the invariant: the wait it enters is coherent since the machine stands at an `in`. -/
theorem hostMove_inv (hs : s.inv = true) (h : s.hostMove = some t) : t.inv = true := by
  obtain ⟨hr, hi, d, ls, r, -, hd, rfl⟩ := hostMove_cases h
  apply applyDirective_inv
  simp [State.inv, State.waitOk, State.wf_of_inv hs, hr, hi, pc_succ_lt_of_inDest hs hd]

/-- Settles O60: of a host move its directive changes what it names, and the wait it enters nothing of the machine. -/
theorem hostMoveChangesOnlyWhatItsDirectiveNames : Obligations.HostMoveChangesOnlyWhatItsDirectiveNames := by
  intro s t h
  have hinv : s.inv = true → t.inv = true := fun hs => hostMove_inv hs h
  obtain ⟨hr, hi, d, ls, r, hl, hd, rfl⟩ := hostMove_cases h
  obtain ⟨hpc, hstack, hrun, hwait, hin, hlines, hterm, hout, -⟩ :=
    applyDirective_frame d ({ s with lines := ls }.enterWait r)
  exact ⟨hr, hi, ⟨r, hwait, State.inDest_eq_some hd⟩,
    ⟨d, by rw [hl, hlines, State.enterWait_lines], fun x => applyDirective_read_ne,
      fun q => applyDirective_getReg_ne, applyDirective_traceOn_ne⟩,
    hpc, hstack, hrun, hin, hout, hterm, hinv⟩

end Sys2Proof.Machine
end

section
/-! SUPPORT. The statements about the ends of a run (60_exceptions.md R120, R121, R125): what an abort and a halt leave,
and the causes an instruction aborts for. -/

namespace Sys2Proof.Machine

variable {s t : State} {i : Instr} {c : Cause}

/-! ## An end changes the run state alone -/

/-- An instruction keeps the run state, or aborts, or halts. -/
theorem exec_run (h : exec i s = .next t) : t.run = s.run ∨ (∃ c, t = s.raise c) ∨ ∃ r, t = s.halt r := by
  cases exec_effect h with
  | raised _ _ c => exact .inr (.inl ⟨c, rfl⟩)
  | halted => exact .inr (.inr ⟨.explicit, rfl⟩)
  | haltedEmpty => exact .inr (.inr ⟨.emptyReturn, rfl⟩)
  | served _ _ _ hserve => exact .inl (serveInput_run_and_output_and_lineTerm hserve).1
  | _ => exact .inl rfl

/-- A step goes on, or aborts, or halts; and then nothing else changes but the trace log. -/
theorem step_run (h : step s = .next t) : t.run = .running ∨
    ∃ log, (∃ c, t = { s.raise c with traceLog := log }) ∨ ∃ r, t = { s.halt r with traceLog := log } := by
  obtain ⟨hr, ⟨r, u, log, -, hu, rfl⟩ | ⟨-, ⟨-, rfl⟩ | ⟨c, -, rfl⟩ | ⟨i, u, log, -, hu, rfl⟩⟩⟩ := step_next h
  · exact .inl ((serveInput_run_and_output_and_lineTerm hu).1.trans hr)
  · exact .inr ⟨s.traceLog, .inr ⟨.outOfRange, rfl⟩⟩
  · exact .inr ⟨s.traceLog, .inl ⟨c, rfl⟩⟩
  · obtain hrun | ⟨c, rfl⟩ | ⟨r, rfl⟩ := exec_run hu
    · exact .inl (hrun.trans hr)
    · exact .inr ⟨log, .inl ⟨c, rfl⟩⟩
    · exact .inr ⟨log, .inr ⟨r, rfl⟩⟩

/-- Settles O40: a step that ends aborted is a raise. -/
theorem abortIsPrecise : Obligations.AbortIsPrecise := by
  intro s t k p w h ht
  obtain hrun | ⟨log, ⟨c, rfl⟩ | ⟨r, rfl⟩⟩ := step_run h
  · cases hrun.symm.trans ht
  · cases ht; exact ⟨rfl, log, rfl⟩
  · cases ht

/-- Settles O41: a step that ends halted is a halt. -/
theorem haltLeavesTheStateAsItIs : Obligations.HaltLeavesTheStateAsItIs := by
  intro s t r h ht
  obtain hrun | ⟨log, ⟨c, rfl⟩ | ⟨r, rfl⟩⟩ := step_run h
  · cases hrun.symm.trans ht
  · cases ht
  · cases ht; exact ⟨log, rfl⟩

/-! ## The causes of an abort -/

theorem withDest_ok {a : Operand} {r : RegNum} {k : RegNum → Result} (h : destination a = .ok r) :
    withDest a s k = k r := by
  simp only [withDest, h]

/-- The causes for which an instruction aborts in a state: the resolve and execute stages of the table of R120. -/
inductive ListedCause : Instr → State → Cause → Prop where
  | value {i : Instr} {s : State} {o : Operand} {c : Cause} (ho : (.value, o) ∈ operandRoles i)
      (hc : s.value o = .error c) : ListedCause i s c
  | dest {i : Instr} {s : State} {o : Operand} {c : Cause} (ho : (.dest, o) ∈ operandRoles i)
      (hc : destination o = .error c) : ListedCause i s c
  | load {a b : Operand} {s : State} {ea : Word} (hb : s.value b = .ok ea) (hea : Config.memWords ≤ ea.toNat) :
      ListedCause (.rmem a b) s ⟨.invalidAddress, ea⟩
  | store {a b : Operand} {s : State} {ea : Word} (ha : s.value a = .ok ea) (hea : Config.memWords ≤ ea.toNat) :
      ListedCause (.wmem a b) s ⟨.invalidAddress, ea⟩
  | underflow {a : Operand} {s : State} (hst : s.stack = []) : ListedCause (.pop a) s ⟨.stackUnderflow, 3⟩
  | modByZero {a b c : Operand} {s : State} (hc : s.value c = .ok 0) :
      ListedCause (.mod a b c) s ⟨.modByZero, c.encode⟩

/-- A result of `i` in `s` that is an abort has a listed cause. -/
def AbortsAsListed (i : Instr) (s : State) (res : Result) : Prop :=
  ∀ t k p w, res = .next t → t.run = .aborted k p w → ListedCause i s ⟨k, w⟩

namespace AbortsAsListed

variable {a b o : Operand}

theorem of_raise (hc : ListedCause i s c) : AbortsAsListed i s (.next (s.raise c)) := by
  rintro _ k p w ⟨⟩ ⟨⟩
  exact hc

theorem of_halt (r : HaltReason) : AbortsAsListed i s (.next (s.halt r)) := by
  rintro _ k p w ⟨⟩ ⟨⟩

theorem of_running (ht : t.run = .running) : AbortsAsListed i s (.next t) := by
  rintro _ k p w ⟨⟩ hrun
  cases ht.symm.trans hrun

theorem of_serveInput {r : RegNum} (hs : s.run = .running) : AbortsAsListed i s (serveInput r s) := by
  intro t k p w h
  obtain ⟨hrun, -⟩ := serveInput_run_and_output_and_lineTerm h
  exact of_running (hrun.trans hs) t k p w rfl

theorem of_withValue {k : Word → Result} (ho : (.value, a) ∈ operandRoles i)
    (hk : ∀ v, s.value a = .ok v → AbortsAsListed i s (k v)) : AbortsAsListed i s (withValue a s k) := by
  cases hv : s.value a with
  | ok v => rw [withValue_ok hv]; exact hk v hv
  | error c => rw [withValue_error hv]; exact of_raise (.value ho hv)

theorem of_withDest {k : RegNum → Result} (ho : (.dest, a) ∈ operandRoles i)
    (hk : ∀ d, AbortsAsListed i s (k d)) : AbortsAsListed i s (withDest a s k) := by
  cases hd : destination a with
  | ok d => rw [withDest_ok hd]; exact hk d
  | error c => rw [withDest_error hd]; exact of_raise (.dest ho hd)

theorem of_V {k : Word → Result} (hi : operandRoles i = [(.value, a)])
    (hk : ∀ v, AbortsAsListed i s (k v)) : AbortsAsListed i s (withValue a s k) :=
  of_withValue (by simp [hi]) fun v _ => hk v

theorem of_D {k : RegNum → Result} (hi : operandRoles i = [(.dest, a)])
    (hk : ∀ d, AbortsAsListed i s (k d)) : AbortsAsListed i s (withDest a s k) :=
  of_withDest (by simp [hi]) hk

theorem of_VV {k : Word → Word → Result} (hi : operandRoles i = [(.value, a), (.value, b)])
    (hk : ∀ v w, s.value a = .ok v → AbortsAsListed i s (k v w)) : AbortsAsListed i s (withVV a b s k) :=
  of_withValue (by simp [hi]) fun v hv => of_withValue (by simp [hi]) fun w _ => hk v w hv

theorem of_DV {k : RegNum → Word → Result} (hi : operandRoles i = [(.dest, a), (.value, b)])
    (hk : ∀ d v, s.value b = .ok v → AbortsAsListed i s (k d v)) : AbortsAsListed i s (withDV a b s k) :=
  of_withDest (by simp [hi]) fun d => of_withValue (by simp [hi]) fun v hv => hk d v hv

theorem of_DVV {k : RegNum → Word → Word → Result}
    (hi : operandRoles i = [(.dest, a), (.value, b), (.value, o)])
    (hk : ∀ d v w, s.value o = .ok w → AbortsAsListed i s (k d v w)) : AbortsAsListed i s (withDVV a b o s k) :=
  of_withDest (by simp [hi]) fun d => of_withValue (by simp [hi]) fun v _ =>
    of_withValue (by simp [hi]) fun w hw => hk d v w hw

theorem of_branch {p : Bool} {v : Word} (hs : s.run = .running) : AbortsAsListed i s (branch p v s) := by
  unfold branch
  split
  · exact of_running hs
  · exact of_running hs

/-- Every instruction aborts as listed: by the roles of its operands, and then by what it does with their values. -/
theorem of_exec (hs : s.run = .running) (i : Instr) : AbortsAsListed i s (exec i s) := by
  cases i with
  | halt => exact of_halt .explicit
  | noop => exact of_running hs
  | ret =>
    cases hst : s.stack with
    | nil => rw [exec_ret_of_nil hst]; exact of_halt .emptyReturn
    | cons v st => rw [exec_ret_of_cons hst]; exact of_running hs
  | push | jmp | call | out => exact of_V rfl fun _ => of_running hs
  | set | not => exact of_DV rfl fun _ _ _ => of_running hs
  | jt | jf => exact of_VV rfl fun _ _ _ => of_branch hs
  | eq | gt | add | mult | and | or => exact of_DVV rfl fun _ _ _ _ => of_running hs
  | input a => exact of_D rfl fun _ => of_serveInput hs
  | pop a =>
    rw [exec_pop_eq_withDest]
    refine of_D rfl fun d => ?_
    cases hst : s.stack with
    | nil => rw [exec_pop_register_of_nil hst]; exact of_raise (.underflow hst)
    | cons v st => rw [exec_pop_register_of_cons hst]; exact of_running hs
  | mod a b c =>
    refine of_DVV rfl fun d v w hw => ?_
    split
    · next h0 => exact of_raise (.modByZero (h0 ▸ hw))
    · exact of_running hs
  | rmem a b =>
    rw [exec_rmem_eq_withDV]
    refine of_DV rfl fun d ea hb => ?_
    split
    · exact of_running hs
    · next hea => exact of_raise (.load hb (not_lt.1 hea))
  | wmem a b =>
    rw [exec_wmem_eq_withVV]
    refine of_VV rfl fun ea v ha => ?_
    split
    · exact of_running hs
    · next hea => exact of_raise (.store ha (not_lt.1 hea))

end AbortsAsListed

/-- The operands of a well-formed instruction are well-formed. -/
theorem wf_of_mem_operandRoles {role : Role} {o : Operand} (hi : i.wf = true) (ho : (role, o) ∈ operandRoles i) :
    o.wf = true := by
  have hall : ∀ p ∈ operandRoles i, p.2.wf = true := by
    cases i with
    | halt | ret | noop => simp [operandRoles]
    | push | pop | jmp | call | out | input => simpa [operandRoles, Instr.wf] using hi
    | set | jt | jf | not | rmem | wmem => simpa [operandRoles, Instr.wf] using hi
    | eq | gt | add | mult | mod | and | or => simpa [operandRoles, Instr.wf, and_assoc] using hi
  exact hall _ ho

/-- A value fault records a word above the register selectors (30_encoding.md R54). -/
theorem value_error {o : Operand} (hwf : o.wf = true) (h : s.value o = .error c) :
    c = ⟨.invalidOperand, o.encode⟩ ∧ 32776 ≤ o.encode.toNat := by
  cases o with
  | literal v => cases h
  | register r => cases h
  | invalid w => cases h; exact ⟨rfl, of_decide_eq_true hwf⟩

/-- A destination fault records a word that is no register selector (30_encoding.md R55). -/
theorem destination_fault {o : Operand} (hwf : o.wf = true) (h : destination o = .error c) :
    c = ⟨.invalidAddress, o.encode⟩ ∧ (o.encode.toNat ≤ 32767 ∨ 32776 ≤ o.encode.toNat) := by
  cases o with
  | literal v =>
    cases h
    have hv := v.isLt
    refine ⟨rfl, .inl ?_⟩
    rw [Operand.encode, BitVec.toNat_setWidth]
    omega
  | register r => cases h
  | invalid w => cases h; exact ⟨rfl, .inr (of_decide_eq_true hwf)⟩

/-- Settles O42: an instruction aborts as listed, and each listed cause has its kind and word. -/
theorem instructionsAbortOnlyForListedCauses : Obligations.InstructionsAbortOnlyForListedCauses := by
  intro i s t k p w hs hwf h ht
  cases AbortsAsListed.of_exec hs i t k p w h ht with
  | value ho hc =>
    obtain ⟨heq, hw⟩ := value_error (wf_of_mem_operandRoles hwf ho) hc
    cases heq
    exact .inl ⟨rfl, ⟨_, ho, rfl⟩, hw⟩
  | dest ho hc =>
    obtain ⟨heq, hw⟩ := destination_fault (wf_of_mem_operandRoles hwf ho) hc
    cases heq
    exact .inr (.inl ⟨rfl, ⟨_, ho, rfl⟩, hw⟩)
  | load hb hea => exact .inr (.inr (.inl ⟨rfl, hea, .inl ⟨_, _, rfl, hb⟩⟩))
  | store ha hea => exact .inr (.inr (.inl ⟨rfl, hea, .inr ⟨_, _, rfl, ha⟩⟩))
  | underflow hst => exact .inr (.inr (.inr (.inl ⟨rfl, rfl, hst, _, rfl⟩)))
  | modByZero hc => exact .inr (.inr (.inr (.inr ⟨rfl, _, _, _, rfl, hc, rfl⟩)))

end Sys2Proof.Machine
end

section
/-! SUPPORT. The statements about the trace (60_exceptions.md R133): every operation of the machine, run on a state and
on the same state without its trace, answers alike but for the trace, and a traced step emits its two records. -/

namespace Sys2Proof.Machine

variable {s t : State} {i : Instr} {r : RegNum} {a b c : Operand}

/-! ## What reads no trace -/

@[simp] theorem State.untraced_lines (s : State) : s.untraced.lines = s.lines := rfl
@[simp] theorem State.untraced_inDest (s : State) : s.untraced.inDest = s.inDest := rfl

/-- Adding records to a result leaves it alike but for the trace. -/
theorem untraced_traced (res : Result) (f : State → List TraceRecord) :
    Result.untraced (Result.traced res f) = Result.untraced res := by
  cases res <;> rfl

/-! ## Directives -/

/-- A directive makes states that are alike but for the trace alike again, `.debug` being the only one that looks at
the flag. -/
theorem untraced_applyDirective_congr (d : Directive) (h : s.untraced = t.untraced) :
    (applyDirective d s).untraced = (applyDirective d t).untraced := by
  have huntraced (s : State) : (applyDirective d s).untraced = (applyDirective d s.untraced).untraced := by
    cases d with
    | wmem | wreg => simp only [applyDirective]; split <;> rfl
    | debug | malformed => rfl
  rw [huntraced s, huntraced t, h]

theorem untraced_applyDirectives_congr (ds : List Directive) (h : s.untraced = t.untraced) :
    (applyDirectives ds s).untraced = (applyDirectives ds t).untraced := by
  induction ds generalizing s t with
  | nil => exact h
  | cons d ds ih => exact ih (untraced_applyDirective_congr d h)

/-! ## Instructions -/

theorem untraced_withValue {k k' : Word → Result} (h : ∀ v, Result.untraced (k v) = Result.untraced (k' v)) :
    Result.untraced (withValue a s k) = Result.untraced (withValue a s.untraced k') := by
  have hval : s.untraced.value a = s.value a := value_congr rfl a
  cases hv : s.value a with
  | ok v => rw [withValue_ok hv, withValue_ok (hval.trans hv), h v]
  | error c => rw [withValue_error hv, withValue_error (hval.trans hv)]; rfl

theorem untraced_withDest {k k' : RegNum → Result} (h : ∀ d, Result.untraced (k d) = Result.untraced (k' d)) :
    Result.untraced (withDest a s k) = Result.untraced (withDest a s.untraced k') := by
  cases hd : destination a with
  | ok d => rw [withDest_ok hd, withDest_ok hd, h d]
  | error c => rw [withDest_error hd, withDest_error hd]; rfl

theorem untraced_withVV {k k' : Word → Word → Result}
    (h : ∀ v w, Result.untraced (k v w) = Result.untraced (k' v w)) :
    Result.untraced (withVV a b s k) = Result.untraced (withVV a b s.untraced k') :=
  untraced_withValue fun v => untraced_withValue (h v)

theorem untraced_withDV {k k' : RegNum → Word → Result}
    (h : ∀ d v, Result.untraced (k d v) = Result.untraced (k' d v)) :
    Result.untraced (withDV a b s k) = Result.untraced (withDV a b s.untraced k') :=
  untraced_withDest fun d => untraced_withValue (h d)

theorem untraced_withDVV {k k' : RegNum → Word → Word → Result}
    (h : ∀ d v w, Result.untraced (k d v w) = Result.untraced (k' d v w)) :
    Result.untraced (withDVV a b c s k) = Result.untraced (withDVV a b c s.untraced k') :=
  untraced_withDest fun d => untraced_withVV (h d)

theorem untraced_branch (p : Bool) (v : Word) (s : State) :
    Result.untraced (branch p v s) = Result.untraced (branch p v s.untraced) := by
  cases p <;> rfl

/-- The service of an `in` looks at the trace flag in its `.debug` directives alone. -/
theorem untraced_serveInput (r : RegNum) (s : State) :
    Result.untraced (serveInput r s) = Result.untraced (serveInput r s.untraced) := by
  cases hi : s.input with
  | cons x q => rw [serveInput_pending hi, serveInput_pending (s := s.untraced) hi]; rfl
  | nil =>
    obtain hl | ⟨ds, cs, ls, hl⟩ := lines_cases s.lines
    · rw [serveInput_stuck hi hl, serveInput_stuck (s := s.untraced) hi hl]
    · obtain ⟨x, q, hc⟩ : ∃ x q, cs ++ [s.lineTerm] = x :: q := List.exists_cons_of_ne_nil (by simp)
      have hds : (applyDirectives ds s).untraced = (applyDirectives ds s.untraced).untraced :=
        untraced_applyDirectives_congr ds rfl
      rw [serveInput_line hi hl hc, serveInput_line (s := s.untraced) hi hl hc]
      exact congrArg (fun u : State => Host.Outcome.next ({ u with lines := ls }.deliver r x q)) hds

/-- No instruction depends on the trace: its operands resolve alike, and its effect reads no trace. -/
theorem untraced_exec (i : Instr) (s : State) :
    Result.untraced (exec i s) = Result.untraced (exec i s.untraced) := by
  cases i with
  | halt | noop => rfl
  | ret =>
    cases hst : s.stack with
    | nil => rw [exec_ret_of_nil hst, exec_ret_of_nil (s := s.untraced) hst]; rfl
    | cons v st => rw [exec_ret_of_cons hst, exec_ret_of_cons (s := s.untraced) hst]; rfl
  | push | jmp | call | out => exact untraced_withValue fun _ => rfl
  | set | not => exact untraced_withDV fun _ _ => rfl
  | jt | jf => exact untraced_withVV fun _ _ => untraced_branch _ _ s
  | eq | gt | add | mult | and | or => exact untraced_withDVV fun _ _ _ => rfl
  | input a => exact untraced_withDest fun r => untraced_serveInput r s
  | pop a =>
    rw [exec_pop_eq_withDest, exec_pop_eq_withDest]
    refine untraced_withDest fun d => ?_
    cases hst : s.stack with
    | nil => rw [exec_pop_register_of_nil hst, exec_pop_register_of_nil (s := s.untraced) hst]; rfl
    | cons v st => rw [exec_pop_register_of_cons hst, exec_pop_register_of_cons (s := s.untraced) hst]; rfl
  | mod a b c => exact untraced_withDVV fun _ _ _ => by split <;> rfl
  | rmem a b =>
    rw [exec_rmem_eq_withDV, exec_rmem_eq_withDV]
    exact untraced_withDV fun _ _ => by split <;> rfl
  | wmem a b =>
    rw [exec_wmem_eq_withVV, exec_wmem_eq_withVV]
    exact untraced_withVV fun _ _ => by split <;> rfl

/-! ## The step and the host move -/

theorem untraced_step (s : State) : Result.untraced (step s) = Result.untraced (step s.untraced) := by
  by_cases hr : s.run = .running
  · cases hw : s.waiting with
    | some r =>
      rw [step_of_wait hr hw, step_of_wait (s := s.untraced) hr hw, traceWait, traceWait, untraced_traced,
        untraced_traced, untraced_serveInput]
    | none =>
      cases hf : s.fetch with
      | outOfRange =>
        rw [step_of_outOfRange hr hw hf, step_of_outOfRange (s := s.untraced) hr hw hf]; rfl
      | illegal c => rw [step_of_illegal hr hw hf, step_of_illegal (s := s.untraced) hr hw hf]; rfl
      | instr i =>
        rw [step_of_fetch hr hw hf, step_of_fetch (s := s.untraced) hr hw hf, traceInstr, traceInstr,
          untraced_traced, untraced_traced, untraced_exec]
  · rw [endedRunTakesNoStep s hr, endedRunTakesNoStep s.untraced hr]

theorem untraced_hostMove (s : State) :
    s.hostMove.map State.untraced = s.untraced.hostMove.map State.untraced := by
  unfold State.hostMove
  by_cases hc : s.run = .running ∧ s.input = []
  · rw [if_pos hc, if_pos (show s.untraced.run = .running ∧ s.untraced.input = [] from hc), State.untraced_lines,
      State.untraced_inDest]
    split
    · exact congrArg some (untraced_applyDirective_congr _ rfl)
    · rfl
  · rw [if_neg hc, if_neg (show ¬ (s.untraced.run = .running ∧ s.untraced.input = []) from hc)]

/-- Settles O58: neither a step nor a host move depends on the trace. -/
theorem traceIsObservationOnly : Obligations.TraceIsObservationOnly :=
  fun s => ⟨untraced_step s, untraced_hostMove s⟩

/-! ## The records of a step -/

/-- Settles O59: a set flag emits the record before, and the instruction itself emits none. -/
theorem tracedStepEmitsBeforeAndAfter : Obligations.TracedStepEmitsBeforeAndAfter := by
  intro s u i hr hw htr hf hu
  rw [step_of_fetch hr hw hf]
  simp only [traceInstr, hu, Result.traced, recordBefore, recordAfter, htr, if_true, exec_traceLog hu]
  rfl

end Sys2Proof.Machine
end

section
/-! SUPPORT. The complete list of what a step can be (70_reset_and_hazards.md R148, 46_io.md R116, R117). -/

namespace Sys2Proof.Machine

variable {s : State} {r : RegNum}

/-- A machine that stands at an `in` is served a code, or has no step for want of input. -/
theorem step_answers_of_inDest (hr : s.run = .running) (hd : s.inDest = some r) :
    (∃ t, step s = .next t) ∨ step s = .fault .waitingForInput := by
  rw [step_of_inDest hr hd]
  obtain ⟨u, hu⟩ | ⟨-, -, hstuck⟩ := serveInput_answers (r := r) (s := s.enterWait r)
  · exact .inl ⟨_, by rw [hu]; rfl⟩
  · exact .inr (by rw [hstuck]; rfl)

/-- A running machine has a next state, or none for want of input; it meets no other fault and no refusal. -/
theorem step_answers (hr : s.run = .running) :
    (∃ t, step s = .next t) ∨ step s = .fault .waitingForInput := by
  cases hw : s.waiting with
  | some r => exact step_answers_of_inDest hr (State.inDest_waiting hw)
  | none =>
    cases hf : s.fetch with
    | outOfRange => exact .inl ⟨_, step_of_outOfRange hr hw hf⟩
    | illegal c => exact .inl ⟨_, step_of_illegal hr hw hf⟩
    | instr i =>
      obtain ⟨u, hu⟩ | ⟨r, rfl, -⟩ := exec_answers i s
      · exact .inl ⟨_, by rw [step_of_fetch hr hw hf, hu]; rfl⟩
      · exact step_answers_of_inDest hr (State.inDest_fetch hw hf)

/-- Settles O35: an ended run takes no step, and a running one is stuck only at an `in` with nothing to deliver. -/
theorem stepStopsOnlyAtTheEndOrForInput : Obligations.StepStopsOnlyAtTheEndOrForInput := by
  intro s
  by_cases hr : s.run = .running
  · obtain hnext | hstuck := step_answers hr
    · exact .inl hnext
    · obtain ⟨-, hi, hl, r, hd⟩ := step_eq_waitingForInput_iff.1 hstuck
      have hin : s.waiting.isSome = true ∨ ∃ r, s.fetch = .instr (.input (.register r)) := by
        obtain hw | ⟨-, hf⟩ := State.inDest_eq_some hd
        · exact .inl (by rw [hw]; rfl)
        · exact .inr ⟨r, hf⟩
      exact .inr (.inr ⟨hstuck, hr, hi, hl, hin⟩)
  · exact .inr (.inl ⟨endedRunTakesNoStep s hr, hr⟩)

end Sys2Proof.Machine
end
